-- ==== Sys2Proof/Word.lean ====
section
/-! DEFINITION. The word types of the machine: a general register, the register HDFGWTR2_EL2 and an address are 64 bits
wide (rules R4, R57, R58), an instruction is one 32-bit word (rule R90), and memory is addressed by byte (rule R61). -/

namespace Sys2Proof

/-- A 64-bit value: a general register (rule R57), HDFGWTR2_EL2 (rule R4), the pc (rule R58), an address. -/
abbrev Word64 := BitVec 64

/-- A 32-bit instruction word (rule R90). -/
abbrev InstrWord := BitVec 32

/-- One byte of memory or of an instruction. -/
abbrev Byte := BitVec 8

end Sys2Proof
end

