-- ==== Sys2Proof/Machine/Memory.lean ====
section
/-! DEFINITION. Data memory (20_memory.md): bytes by address in one canonical form, and the 8-byte access. -/

namespace Sys2Proof.Machine

/-- What an address that memory does not list reads as. DESIGN CHOICE (log entry 6): no source gives memory contents. -/
def unlistedByte : Byte := 0

/-- The canonical form: 64-bit addresses, strictly rising, and no byte listed that would read so anyway. -/
abbrev Memory.wf (m : List Host.Cell) : Prop :=
  m.Pairwise (fun a b => a.1 < b.1) ∧ ∀ c ∈ m, c.1 < 2 ^ 64 ∧ c.2 ≠ unlistedByte

/-- One byte of memory. -/
def readByte : List Host.Cell → Nat → Byte
  | [], _ => unlistedByte
  | (k, v) :: m, a => if k = a then v else readByte m a

/-- Put a byte before the first greater address. -/
def insertByte (a : Nat) (v : Byte) : List Host.Cell → List Host.Cell
  | [] => [(a, v)]
  | (k, w) :: m => if a < k then (a, v) :: (k, w) :: m else (k, w) :: insertByte a v m

/-- Write one byte: the entry of its address goes, and a new one comes unless the value is what an unlisted address reads
as. -/
def writeByte (m : List Host.Cell) (a : Nat) (v : Byte) : List Host.Cell :=
  let m' := m.filter (fun c => decide (c.1 ≠ a))
  if v = unlistedByte then m' else insertByte a v m'

/-- Byte `k` of a 64-bit value, 0 the least significant. -/
def byteOf (v : Word64) (k : Nat) : Byte :=
  v.extractLsb' (8 * k) 8

/-- Which byte of the value stands at address offset `k` (rule R73): byte `k`, or byte `7 - k` in big-endian order. -/
def lane (bigEndian : Bool) (k : Nat) : Nat :=
  if bigEndian then 7 - k else k

/-- `MemRead(addr, 8)` (rules R9, R73). -/
def memRead8 (bigEndian : Bool) (m : List Host.Cell) (a : Nat) : Word64 :=
  let b := fun k => readByte m (a + lane bigEndian k)
  b 7 ++ b 6 ++ b 5 ++ b 4 ++ b 3 ++ b 2 ++ b 1 ++ b 0

/-- `MemWrite(addr, 8, v)` (rules R9, R73). -/
def memWrite8 (bigEndian : Bool) (m : List Host.Cell) (a : Nat) (v : Word64) : List Host.Cell :=
  (List.range 8).foldl (fun m k => writeByte m (a + k) (byteOf v (lane bigEndian k))) m

end Sys2Proof.Machine
end

