-- ==== Sys2Proof/Syntax.lean ====
section
/-! DEFINITION. The instructions of the opcode table, and the accesses the spec identifies by the NAME of a System
register because no source gives their encodings (30_encoding.md section 6). -/

namespace Sys2Proof

/-- The number `t` of the operand `<Xt>`: the 5-bit field `Rt`, 0 to 31; 31 names the zero register (rules R57, R94).
Every value is legal (rule R98). -/
abbrev RegNum := BitVec 5

/-- The two rows of the opcode table (rule R93). -/
inductive Instr where
  /-- `MRS <Xt>, HDFGWTR2_EL2`: read (rule R110). -/
  | mrs (t : RegNum)
  /-- `MSR HDFGWTR2_EL2, <Xt>`: write (rule R111). -/
  | msr (t : RegNum)
  deriving DecidableEq, Repr

/-- The System registers the trap function of rule R157 distinguishes, under the source's spellings (decision D24); the
four families carry the event-counter number `n`, whose range no source gives (decision D25). -/
inductive NamedReg where
  | trbmpamEl1
  | pmzrEl0
  | trcitecrEl1
  | pmsdsfrEl1
  | spmscrEl1
  | spmaccessrEl1
  | spmcrEl0
  /-- Source spelling SPMOVSLR_EL0, alias SPMOVSCLR_EL0 (conflict C12). -/
  | spmovslrEl0
  /-- Source spelling SPMOVSET_EL0, alias SPMOVSSET_EL0 (conflict C12). -/
  | spmovsetEl0
  | spmintenclrEl1
  | spmintensetEl1
  | spmcntenclrEl0
  | spmcntensetEl0
  | spmselrEl0
  /-- Source spellings SPMEVTYPEP<n>_EL0 and SPMEVTPER<n>_EL0, one family (conflict C3). -/
  | spmevtyperEl0 (n : Nat)
  | spmevfiltrEl0 (n : Nat)
  | spmevfilt2rEl0 (n : Nat)
  | spmevcntrEl0 (n : Nat)
  | pmsscrEl1
  | mdselrEl1
  | pmuacrEl1
  | pmicfiltrEl0
  | pmicntrEl0
  | pmiarEl1
  | pmecrEl1
  /-- The six registers that are not governed but whose `F0` field bit 3 affects (rule R152). -/
  | pmcntenclrEl0
  | pmcntensetEl0
  | pmovsclrEl0
  /-- Source spelling PMOVSET_EL0, alias PMOVSSET_EL0 (conflict C12). -/
  | pmovsetEl0
  | pmintenclrEl1
  | pmintensetEl1
  /-- Any register that HDFGWTR2_EL2 says nothing of (rule R157, last sentence). -/
  | other (label : Nat)
  deriving DecidableEq, Repr

/-- The direction of a System register access: `MRS` reads, `MSR` writes (rule R92, bit `L`). -/
inductive Direction where
  | read
  | write
  deriving DecidableEq, Repr

/-- `MRS <Xt>, <reg>` or `MSR <reg>, <Xt>` of a register known by its name alone. -/
structure NamedAccess where
  dir : Direction
  reg : NamedReg
  t   : RegNum
  deriving DecidableEq, Repr

/-- What stands at one instruction address of the program. The program is a parameter of the step relation and no part
of memory (rule R81). -/
inductive Slot where
  /-- An instruction word, as its four bytes in order of address (rule R90). -/
  | code (b0 b1 b2 b3 : Byte)
  /-- An access identified by name, whose word no source gives. -/
  | named (a : NamedAccess)
  deriving DecidableEq, Repr

end Sys2Proof
end

