-- ==== Sys2Proof/Machine/Operands.lean ====
section
/-! DEFINITION. The one operand form of the spec, the general register `<Xt>` (rules R56, R57, R94). There is no immediate
(rule R95), and no condition flag is read or written by anything (rule R59). -/

namespace Sys2Proof.Machine

/-- The value of `X[t]`: number 31 is the zero register (rule R57). -/
def regRead (x : Vector Word64 31) (t : RegNum) : Word64 :=
  if h : t.toNat < 31 then x[t.toNat] else 0

/-- `X[t] <- v`: number 31 discards the value (rule R57). -/
def regWrite (x : Vector Word64 31) (t : RegNum) (v : Word64) : Vector Word64 31 :=
  if h : t.toNat < 31 then x.set t.toNat v h else x

end Sys2Proof.Machine
end

