-- ==== Sys2Proof/Decode.lean ====
section
/-! DEFINITION. The encoding of the two instructions (30_encoding.md): a decoder that is total on any bytes and refuses by
name, and an encoder written from the field layout of rule R92. -/

namespace Sys2Proof

/-- Why bytes are no instruction of this spec. -/
inductive DecodeError where
  /-- Fewer than the four bytes of an instruction (rule R90). -/
  | truncated
  /-- "not an accessor of HDFGWTR2_EL2" (rule R96): neither a no-op nor UNDEFINED. -/
  | notAnAccessor (w : InstrWord)
  deriving DecidableEq, Repr

/-- The mask of both rows (rule R93). -/
def accessorMask : InstrWord := 0xFFFFFFE0#32

/-- The match of the row MRS (rule R93). -/
def mrsMatch : InstrWord := 0xD53C3120#32

/-- The match of the row MSR (rule R93). -/
def msrMatch : InstrWord := 0xD51C3120#32

/-- The field `Rt`, bits 4:0 (rule R94). -/
def rtField (w : InstrWord) : RegNum :=
  w.extractLsb' 0 5

/-- The decode rule R96 on one word. -/
def decodeWord (w : InstrWord) : Except DecodeError Instr :=
  if w &&& accessorMask = mrsMatch then .ok (.mrs (rtField w))
  else if w &&& accessorMask = msrMatch then .ok (.msr (rtField w))
  else .error (.notAnAccessor w)

/-- The word of four bytes in order of address: instructions are fetched little-endian (rule R90). -/
def wordOfBytes (b0 b1 b2 b3 : Byte) : InstrWord :=
  b3 ++ b2 ++ b1 ++ b0

/-- Byte `k` of a word, 0 the least significant. -/
def byteOfWord (w : InstrWord) (k : Nat) : Byte :=
  w.extractLsb' (8 * k) 8

/-- Decode the instruction at the front of a list of bytes, and give the bytes after it. -/
def decode : List Byte → Except DecodeError (Instr × List Byte)
  | b0 :: b1 :: b2 :: b3 :: rest =>
    match decodeWord (wordOfBytes b0 b1 b2 b3) with
    | .ok i => .ok (i, rest)
    | .error e => .error e
  | _ => .error .truncated

/-- op0 of HDFGWTR2_EL2 (rule R91). -/
def sysOp0 : BitVec 2 := 0b11#2

/-- op1 of HDFGWTR2_EL2 (rule R91). -/
def sysOp1 : BitVec 3 := 0b100#3

/-- CRn of HDFGWTR2_EL2 (rule R91). -/
def sysCRn : BitVec 4 := 0b0011#4

/-- CRm of HDFGWTR2_EL2 (rule R91). -/
def sysCRm : BitVec 4 := 0b0001#4

/-- op2 of HDFGWTR2_EL2 (rule R91). -/
def sysOp2 : BitVec 3 := 0b001#3

/-- The System register move word of rule R92 for HDFGWTR2_EL2: fixed bits, `L`, op0, op1, CRn, CRm, op2, Rt. -/
def moveWord (l : BitVec 1) (rt : RegNum) : InstrWord :=
  0b1101010100#10 ++ l ++ sysOp0 ++ sysOp1 ++ sysCRn ++ sysCRm ++ sysOp2 ++ rt

/-- The word of an instruction: `L` is 1 for the read and 0 for the write (rule R92). -/
def encodeWord : Instr → InstrWord
  | .mrs t => moveWord 1#1 t
  | .msr t => moveWord 0#1 t

/-- The bytes of an instruction, in order of address (rule R90). -/
def encode (i : Instr) : List Byte :=
  [byteOfWord (encodeWord i) 0, byteOfWord (encodeWord i) 1,
   byteOfWord (encodeWord i) 2, byteOfWord (encodeWord i) 3]

/-- The one 32-bit word of an opcode-table row given `nbits` bits of `w`; every bit above `nbits` is 0. -/
def tableWord (nbits w : Nat) : InstrWord :=
  BitVec.ofNat 32 (w % 2 ^ nbits)

/-- The instruction the decoder reads from the bits `w` of an opcode-table row, laid out as bytes. -/
def decodeTableWord (nbits w : Nat) : Option Instr :=
  let v := tableWord nbits w
  match decode [byteOfWord v 0, byteOfWord v 1, byteOfWord v 2, byteOfWord v 3] with
  | .ok (i, _) => some i
  | .error _ => none

end Sys2Proof
end

