-- ==== Sys2Proof/Config.lean ====
section
/-! DEFINITION. The implementation parameters of rule R5. They are plain data: a state carries its own configuration, no
step changes it (rule R24), and a statement over every state is a statement over every configuration (decision D27). -/

namespace Sys2Proof

/-- The parameters of rule R5, under the spec's names. -/
structure Config where
  /-- Whether the register exists (rule R3). -/
  featFGT2          : Bool
  featTRBEMPAM      : Bool
  featPMUv3p9       : Bool
  featITE           : Bool
  featSPEFDS        : Bool
  featSPMU          : Bool
  featPMUv3SS       : Bool
  featDebugv8p9     : Bool
  featPMUv3ICNTR    : Bool
  featSEBEP         : Bool
  featEBEP          : Bool
  /-- `HaveEL(EL3)` (rule R54). -/
  haveEl3           : Bool
  /-- `boolean IMPLEMENTATION_DEFINED "EL3 trap priority when SDD == '1'"` (rule R116). -/
  impdefEl3TrapPrioritySdd : Bool
  numBreakpoints    : Nat
  numWatchpoints    : Nat
  mdselrEl1IsRazwi  : Bool
  /-- What the implementation chooses where rule R41 leaves bit 5 to it; elsewhere it is not looked at. -/
  nmdselrChoice     : Bool
  /-- The event counters `n` that are implemented: the predicate `SPMU_EVENT_COUNTER_IMPLEMENTED` as data (decision
  D25). -/
  spmuEventCounters : List Nat
  /-- Which RES0 bits are storage (decision D1). -/
  res0StorageMask   : Word64
  /-- Byte order of the `NVMem` access (decision D8). -/
  nvmemBigEndian    : Bool
  deriving DecidableEq, Repr

/-- The four conjuncts under which rule R5 leaves `NMDSELR_FIELD_IMPLEMENTED` to the implementation (rule R41, decision
D35). -/
def Config.nmdselrMayBeAbsent (c : Config) : Bool :=
  c.featDebugv8p9 && decide (c.numBreakpoints ≤ 16) && decide (c.numWatchpoints ≤ 16) && c.mdselrEl1IsRazwi

/-- `NMDSELR_FIELD_IMPLEMENTED` of rule R5: the implementation's choice where it has one, forced true elsewhere. -/
def Config.nmdselrFieldImplemented (c : Config) : Bool :=
  c.nmdselrChoice || !c.nmdselrMayBeAbsent

/-- `SPMU_EVENT_COUNTER_IMPLEMENTED(n)` of rule R5. -/
def Config.spmuEventCounterImplemented (c : Config) (n : Nat) : Bool :=
  c.spmuEventCounters.contains n

/-- The "architecturally unknown value" of a reset (rule R48, decision D2): draw number `k`, 64 independent bits. It has
no body, so nothing can be proved of a value of it. -/
opaque Config.unknownBits : Nat → Word64

/-- The configuration of the test vectors: every feature, bit 5 a field, hardwired reserved bits, little-endian, and no
EL3. DESIGN CHOICE (log entry 3): the spec fixes none of these; no statement rests on them. -/
def Config.reference : Config where
  featFGT2 := true
  featTRBEMPAM := true
  featPMUv3p9 := true
  featITE := true
  featSPEFDS := true
  featSPMU := true
  featPMUv3SS := true
  featDebugv8p9 := true
  featPMUv3ICNTR := true
  featSEBEP := true
  featEBEP := true
  haveEl3 := false
  impdefEl3TrapPrioritySdd := false
  numBreakpoints := 16
  numWatchpoints := 16
  mdselrEl1IsRazwi := false
  nmdselrChoice := true
  spmuEventCounters := List.range 16
  res0StorageMask := 0
  nvmemBigEndian := false

end Sys2Proof
end

