-- ==== Sys2Proof/Machine/Fields.lean ====
section
/-! DEFINITION. The 64 bits of HDFGWTR2_EL2: its 20 fields, which of them an implementation has, the masks, what a write
stores and what a Warm reset leaves (10_state.md sections 1 to 5). -/

namespace Sys2Proof.Machine

/-- The 20 fields of rule R21, one bit each. -/
inductive Field where
  | nTRBMPAM_EL1
  | nPMZR_EL0
  | nTRCITECR_EL1
  | nPMSDSFR_EL1
  | nSPMSCR_EL1
  | nSPMACCESSR_EL1
  | nSPMCR_EL0
  | nSPMOVS
  | nSPMINTEN
  | nSPMCNTEN
  | nSPMSELR_EL0
  /-- Source spelling nSPMEVTYPEPn_EL0 (rule R38). -/
  | nSPMEVTYPERn_EL0
  | nSPMEVCNTRn_EL0
  | nPMSSCR_EL1
  | nMDSELR_EL1
  | nPMUACR_EL1
  | nPMICFILTR_EL0
  | nPMICNTR_EL0
  | nPMIAR_EL1
  | nPMECR_EL1
  deriving DecidableEq, Repr

/-- Every field, in the order of rule R21. -/
def allFields : List Field :=
  [.nTRBMPAM_EL1, .nPMZR_EL0, .nTRCITECR_EL1, .nPMSDSFR_EL1, .nSPMSCR_EL1, .nSPMACCESSR_EL1, .nSPMCR_EL0,
   .nSPMOVS, .nSPMINTEN, .nSPMCNTEN, .nSPMSELR_EL0, .nSPMEVTYPERn_EL0, .nSPMEVCNTRn_EL0, .nPMSSCR_EL1,
   .nMDSELR_EL1, .nPMUACR_EL1, .nPMICFILTR_EL0, .nPMICNTR_EL0, .nPMIAR_EL1, .nPMECR_EL1]

/-- The bit position of a field (rule R21; rules R27 to R46, one each). -/
def Field.bit : Field → Nat
  | .nTRBMPAM_EL1 => 22
  | .nPMZR_EL0 => 21
  | .nTRCITECR_EL1 => 20
  | .nPMSDSFR_EL1 => 19
  | .nSPMSCR_EL1 => 16
  | .nSPMACCESSR_EL1 => 15
  | .nSPMCR_EL0 => 14
  | .nSPMOVS => 13
  | .nSPMINTEN => 12
  | .nSPMCNTEN => 11
  | .nSPMSELR_EL0 => 10
  | .nSPMEVTYPERn_EL0 => 9
  | .nSPMEVCNTRn_EL0 => 8
  | .nPMSSCR_EL1 => 7
  | .nMDSELR_EL1 => 5
  | .nPMUACR_EL1 => 4
  | .nPMICFILTR_EL0 => 3
  | .nPMICNTR_EL0 => 2
  | .nPMIAR_EL1 => 1
  | .nPMECR_EL1 => 0

/-- The condition "field exists when" of rule R21 (rules R27 to R46). -/
def Field.existsIn (c : Config) : Field → Bool
  | .nTRBMPAM_EL1 => c.featTRBEMPAM
  | .nPMZR_EL0 => c.featPMUv3p9
  | .nTRCITECR_EL1 => c.featITE
  | .nPMSDSFR_EL1 => c.featSPEFDS
  | .nSPMSCR_EL1 => c.featSPMU
  | .nSPMACCESSR_EL1 => c.featSPMU
  | .nSPMCR_EL0 => c.featSPMU
  | .nSPMOVS => c.featSPMU
  | .nSPMINTEN => c.featSPMU
  | .nSPMCNTEN => c.featSPMU
  | .nSPMSELR_EL0 => c.featSPMU
  | .nSPMEVTYPERn_EL0 => c.featSPMU
  | .nSPMEVCNTRn_EL0 => c.featSPMU
  | .nPMSSCR_EL1 => c.featPMUv3SS
  | .nMDSELR_EL1 => c.featDebugv8p9 && c.nmdselrFieldImplemented
  | .nPMUACR_EL1 => c.featPMUv3p9
  | .nPMICFILTR_EL0 => c.featPMUv3ICNTR
  | .nPMICNTR_EL0 => c.featPMUv3ICNTR
  | .nPMIAR_EL1 => c.featSEBEP
  | .nPMECR_EL1 => c.featEBEP || c.featPMUv3SS

/-- The register value with exactly this field's bit set. -/
def Field.mask (f : Field) : Word64 :=
  1#64 <<< f.bit

/-- `FIELD_MASK` of rule R47: a 1 at exactly the positions of the fields that exist. -/
def fieldMask (c : Config) : Word64 :=
  allFields.foldl (fun m f => if f.existsIn c then m ||| f.mask else m) 0#64

/-- `RES0_MASK = NOT FIELD_MASK` (rules R22, R47). -/
def res0Mask (c : Config) : Word64 :=
  ~~~ fieldMask c

/-- The bits that hold a value at all: the fields, and the reserved bits that are storage (rule R23). -/
def storedMask (c : Config) : Word64 :=
  fieldMask c ||| c.res0StorageMask

/-- `WriteValue(v)` of rule R113. -/
def writeValue (c : Config) (v : Word64) : Word64 :=
  (v &&& fieldMask c) ||| (v &&& c.res0StorageMask)

/-- The register after a Warm reset that draws `draw` (rule R200; R48 for the fields, R49 for the storage reserved bits):
a field becomes 0 without EL3 and a drawn bit with it, a storage reserved bit a drawn bit, any other bit 0. -/
def warmResetValue (c : Config) (draw : Word64) : Word64 :=
  (if c.haveEl3 then draw &&& fieldMask c else 0#64) |||
    (if c.res0StorageMask = 0#64 then 0#64 else draw &&& (c.res0StorageMask &&& res0Mask c))

end Sys2Proof.Machine
end

