-- ==== Sys2Proof/Machine/State.lean ====
section
/-! DEFINITION. The state of the machine as plain data (10_state.md), the ways a step can stop, the Warm reset (rule R200)
and the machine right after it. -/

namespace Sys2Proof.Machine

/-- The four Exception levels (rules R50, R183). -/
inductive EL where
  | el0
  | el1
  | el2
  | el3
  deriving DecidableEq, Repr

/-- An exception that the source alludes to and does not define (`Other(e)` of rule R170): known by a label only. -/
structure ExternalException where
  label : Nat
  deriving DecidableEq, Repr

/-- The context inputs of one step (10_state.md section 6): state of the PE that the rules read and never write. No rule
gives any of them a layout, so each is the named bit and no register image (rule R8). -/
structure Inputs where
  /-- `PSTATE.EL` (rule R50). -/
  el : EL
  /-- `EL2Enabled()`, the same as "EL2 is implemented and enabled in the current Security state" (rule R52). -/
  el2Enabled : Bool
  /-- `HCR_EL2.NV` (rule R51). -/
  hcrNV : Bool
  /-- `HCR_EL2.NV2` (rule R51). -/
  hcrNV2 : Bool
  /-- `HCR_EL2.E2H` (rule R51). -/
  hcrE2H : Bool
  /-- `HCR_EL2.TGE` (rule R51). -/
  hcrTGE : Bool
  /-- `SCR_EL3.FGTEn2` (rule R54). -/
  scrFGTEn2 : Bool
  /-- `Halted()` (rule R53). -/
  halted : Bool
  /-- `EDSCR.SDD` (rule R53). -/
  edscrSDD : Bool
  /-- `HigherPriorityException`, the oracle of rule R173 for a governed write of this step. -/
  higherPriority : Option ExternalException
  /-- `NVMemFault`, the oracle of rule R77 for an `NVMem` access of this step. -/
  nvMemFault : Option ExternalException
  /-- `NVBase`, held in VNCR_EL2 (rule R71). -/
  nvBase : Word64
  deriving DecidableEq, Repr

/-- The machine's state. -/
structure State where
  /-- The implementation parameters of rule R5; no step changes them (rule R24). -/
  cfg : Config
  /-- The stored 64 bits of HDFGWTR2_EL2 (rule R20). -/
  hdfgwtr2 : Word64
  /-- X0 to X30 (rule R57). -/
  x : Vector Word64 31
  /-- The program counter (rule R58). -/
  pc : Word64
  /-- Data memory (rule R61), in the canonical form that `Memory.wf` states. -/
  mem : List Host.Cell
  /-- The context inputs the next step reads (rules R50 to R55, R71, R77). -/
  inputs : Inputs
  /-- The MODEL's own: the inputs of the steps after the next one, oldest first. Where it is empty they stay. -/
  schedule : List Inputs
  /-- The program, by instruction address (rule R81): a parameter, never written by a step. -/
  program : List (Nat × Slot)
  /-- The MODEL's own: how many reset draws have been taken (rule R48). -/
  draws : Nat
  deriving DecidableEq, Repr

/-- The faults: the terminal outcomes of rule R170. What the machine does after one is outside the spec (rule R177), and
the faulting instruction has written nothing (rule R178). -/
inductive Fault where
  /-- `Undefined` (rule R172). Raised by both accessors (rules R110 to R112) and by a governed write of an event counter
  that is not implemented (rules R147, R148). Safe: the model stops where the PE enters a handler. -/
  | undefined
  /-- `Trap(target, ec)` (rule R171). Raised by both accessors, to EL2 or EL3, and by a governed write, to EL2 (rule
  R133). Safe: the model stops where the PE enters a handler. -/
  | systemAccessTrap (target : EL) (ec : BitVec 6)
  /-- `Other(e)`: the oracles of rules R77 and R173 gave `e`. Safe: the oracle is an input. -/
  | other (e : ExternalException)
  deriving DecidableEq, Repr

/-- The refusals: where the spec gives no meaning. All are safe: the model stops and claims nothing. -/
inductive Refusal where
  /-- An instruction with no meaning yet, by its mnemonic. Raised by no arm of `exec`. -/
  | notModelled (mnemonic : String)
  /-- The bytes at the pc are no accessor of HDFGWTR2_EL2 (rule R96). Raised by `step`. -/
  | undecodable (e : DecodeError)
  /-- The program has nothing at the pc (rule R81). Raised by `step`. -/
  | noInstructionAt (address : Nat)
  /-- The pc is not 4-byte aligned: outside the spec (rules R58, R175). Raised by `step`. -/
  | pcMisaligned
  /-- `NVBase` is not aligned (rules R71, R74). Raised by an accessor in its memory case. -/
  | nvBaseMisaligned
  /-- `NotTrappedHere` (rule R135): this register does not stop the write, and what the write then does is in no source.
  It carries `F0IgnoresThisWrite` (rule R156). Raised by a write identified by name. -/
  | notTrappedHere (f0IgnoresThisWrite : Bool)
  /-- A write identified by name while `Halted()` (rule R185). Raised by such a write. -/
  | namedWriteInDebugState
  /-- A read identified by name: never affected by this register (rule R130), and its effect is in no source. -/
  | namedReadNotGoverned
  deriving DecidableEq, Repr

/-- The three outcomes of a step of this machine. -/
abbrev Result := Host.Outcome State Fault Refusal

/-- The Warm reset of rule R200. It gives the register its reset value with the next draw. The argument is the state in
which everything else comes out of the reset: no rule gives any of that a value (rules R202, R203), so a claim about
reset is a claim for every argument. -/
def State.warmReset (s : State) : State :=
  { s with
    hdfgwtr2 := warmResetValue s.cfg (Config.unknownBits s.draws)
    draws := s.draws + 1 }

/-- The context inputs after reset. DESIGN CHOICE and PRESUMED (log entries 4 and 5): no source gives one. -/
def Inputs.reset : Inputs where
  el := .el2
  el2Enabled := true
  hcrNV := false
  hcrNV2 := false
  hcrE2H := false
  hcrTGE := false
  scrFGTEn2 := false
  halted := false
  edscrSDD := false
  higherPriority := none
  nvMemFault := none
  nvBase := 0

/-- Everything that reset gives no value to. DESIGN CHOICE (log entries 3 to 7). -/
def State.beforeReset : State where
  cfg := Config.reference
  hdfgwtr2 := 0
  x := Vector.replicate 31 0
  pc := 0
  mem := []
  inputs := Inputs.reset
  schedule := []
  program := []
  draws := 0

/-- The machine right after a Warm reset (rule R200), in the configuration `Config.reference`. -/
def State.reset : State :=
  State.beforeReset.warmReset

end Sys2Proof.Machine
end

