-- ==== Sys2Proof/Machine/Ops.lean ====
section
/-! DEFINITION. The named operations every meaning is written over: registers, the `NVMem` location, and raising an
exception. -/

namespace Sys2Proof.Machine

/-- `X[t]` (rules R9, R57). -/
def State.readX (s : State) (t : RegNum) : Word64 :=
  regRead s.x t

/-- `X[t] <- v` (rules R9, R57). -/
def State.writeX (s : State) (t : RegNum) (v : Word64) : State :=
  { s with x := regWrite s.x t v }

/-- `ReadValue` of rule R114: the stored bits, never the "treated as zero" value (decision D29). -/
def State.readRegister (s : State) : Word64 :=
  s.hdfgwtr2

/-- `HDFGWTR2_EL2 <- WriteValue(v)` (rule R113), in force for the next instruction (rule R207). -/
def State.writeRegister (s : State) (v : Word64) : State :=
  { s with hdfgwtr2 := writeValue s.cfg v }

/-- The pc moves past one instruction, modulo 2^64 (rule R118). -/
def State.advancePc (s : State) : State :=
  { s with pc := s.pc + 4 }

/-- Outcome `Completed` of rule R170: the writes are done and the pc moves on. -/
def complete (s : State) : Result :=
  .next s.advancePc

/-- RAISING AN EXCEPTION, the one shared operation (rules R9(e), R170). It ends the instruction with no architectural
write (rule R178). The spec gives no next state: "a model must stop the run there" (rule R177, decision D6). -/
def raise (f : Fault) : Result :=
  .fault f

/-- The exception class of a System access trap (rule R171). -/
def trapEc : BitVec 6 := 0x18#6

/-- `UNDEFINED` (rule R172). -/
def undefinedFault : Fault :=
  .undefined

/-- `AArch64.SystemAccessTrap(target, 0x18)` (rule R171). -/
def trapFault (target : EL) : Fault :=
  .systemAccessTrap target trapEc

/-- The offset of the register's memory copy, `NVMem[0x1B0]` (rule R70). -/
def nvOffset : Word64 := 0x1B0#64

/-- The address `NVBase + 0x1B0` (rule R71). -/
def State.nvAddr (s : State) : Nat :=
  (s.inputs.nvBase + nvOffset).toNat

/-- `NVBase` is aligned as rule R71 says: 4096 bytes. -/
def nvBaseAligned (base : Word64) : Bool :=
  base.extractLsb' 0 12 == 0

/-- The 64-bit value at `NVMem[0x1B0]` (rules R70, R73). -/
def State.nvMemRead (s : State) : Word64 :=
  memRead8 s.cfg.nvmemBigEndian s.mem s.nvAddr

/-- Memory after `NVMem[0x1B0] <- v`, all 64 bits unmasked (rules R70, R73, R115). -/
def State.nvMemWrite (s : State) (v : Word64) : State :=
  { s with mem := memWrite8 s.cfg.nvmemBigEndian s.mem s.nvAddr v }

/-- One `NVMem` access, then the rest of the instruction. A base that is not aligned is refused (rule R74); a fault the
oracle gives ends the instruction (rule R77). -/
def nvMemAccess (s : State) (done : State) : Result :=
  if nvBaseAligned s.inputs.nvBase then
    match s.inputs.nvMemFault with
    | some e => raise (.other e)
    | none => complete done
  else .refused .nvBaseMisaligned

end Sys2Proof.Machine
end

