-- ==== Sys2Proof/Machine/RegisterAccess.lean ====
section
/-! DEFINITION. The two accessors of HDFGWTR2_EL2 (40_register_access.md): the decision both share, and one meaning
each. -/

namespace Sys2Proof.Machine

/-- Where an accessor ends up. -/
inductive Route where
  /-- The register itself (cases 7 and 8). -/
  | register
  /-- `NVMem[0x1B0]` (case 2). -/
  | memory
  /-- An exception (the other cases). -/
  | raises (f : Fault)
  deriving DecidableEq, Repr

/-- The branch `PSTATE.EL == EL1` of the source's pseudocode (rules R110, R111). -/
def routeAtEl1 (i : Inputs) : Route :=
  if i.el2Enabled && (i.hcrNV2 && i.hcrNV) then .memory
  else if i.el2Enabled && i.hcrNV then .raises (trapFault .el2)
  else .raises undefinedFault

/-- The branch `PSTATE.EL == EL2` of the source's pseudocode (rules R110, R111), its first arm kept although rule R116
shows that it cannot be observed. -/
def routeAtEl2 (c : Config) (i : Inputs) : Route :=
  if i.halted && c.haveEl3 && i.edscrSDD && c.impdefEl3TrapPrioritySdd && !i.scrFGTEn2 then .raises undefinedFault
  else if c.haveEl3 && !i.scrFGTEn2 then
    if i.halted && i.edscrSDD then .raises undefinedFault
    else .raises (trapFault .el3)
  else .register

/-- The pseudocode both accessors share (rules R110, R111); without the register every direct access is UNDEFINED (rule
R112). -/
def accessRoute (c : Config) (i : Inputs) : Route :=
  if c.featFGT2 then
    match i.el with
    | .el0 => .raises undefinedFault
    | .el1 => routeAtEl1 i
    | .el2 => routeAtEl2 c i
    | .el3 => .register
  else .raises undefinedFault

/-- `MRS <Xt>, HDFGWTR2_EL2` (rule R110). -/
def execMrs (t : RegNum) (s : State) : Result :=
  match accessRoute s.cfg s.inputs with
  | .register => complete (s.writeX t s.readRegister)
  | .memory => nvMemAccess s (s.writeX t s.nvMemRead)
  | .raises f => raise f

/-- `MSR HDFGWTR2_EL2, <Xt>` (rule R111). -/
def execMsr (t : RegNum) (s : State) : Result :=
  match accessRoute s.cfg s.inputs with
  | .register => complete (s.writeRegister (s.readX t))
  | .memory => nvMemAccess s (s.nvMemWrite (s.readX t))
  | .raises f => raise f

end Sys2Proof.Machine
end

