-- ==== Sys2Proof/Machine/Dispatch.lean ====
section
/-! DEFINITION. The machine's one dispatch: an arm per row of the opcode table. -/

namespace Sys2Proof.Machine

def exec (i : Instr) (s : State) : Host.Outcome State Fault Refusal :=
  match i with
  | .mrs t => Sys2Proof.Machine.execMrs t s
  | .msr t => Sys2Proof.Machine.execMsr t s

end Sys2Proof.Machine
end

