-- ==== Sys2Proof/Machine/Program.lean ====
section
/-! DEFINITION. The program, a parameter of the step relation (rule R81): looking an instruction up and placing one. -/

namespace Sys2Proof.Machine

/-- What the program has at an address. -/
def slotAt : List (Nat × Slot) → Nat → Option Slot
  | [], _ => none
  | (k, v) :: p, a => if k = a then some v else slotAt p a

/-- Put a slot before the first greater address. -/
def insertSlot (a : Nat) (v : Slot) : List (Nat × Slot) → List (Nat × Slot)
  | [] => [(a, v)]
  | (k, w) :: p => if a < k then (a, v) :: (k, w) :: p else (k, w) :: insertSlot a v p

/-- The program with this slot at this address. -/
def setSlot (p : List (Nat × Slot)) (a : Nat) (v : Slot) : List (Nat × Slot) :=
  insertSlot a v (p.filter (fun c => decide (c.1 ≠ a)))

/-- The slot of an instruction word, little-endian (rule R90). -/
def codeSlot (w : InstrWord) : Slot :=
  .code (byteOfWord w 0) (byteOfWord w 1) (byteOfWord w 2) (byteOfWord w 3)

/-- Instruction addresses are 4-byte aligned (rule R58). -/
def pcAligned (pc : Word64) : Bool :=
  pc.extractLsb' 0 2 == 0

/-- The address with its two low bits cleared. -/
def alignPc (pc : Word64) : Word64 :=
  pc &&& 0xFFFFFFFFFFFFFFFC#64

/-- What the machine finds at its pc. -/
inductive Fetched where
  | accessor (i : Instr)
  | named (a : NamedAccess)
  | nothing (r : Refusal)
  deriving DecidableEq, Repr

/-- Read one slot: decode a word (rule R96), or pass an access identified by name on. -/
def readSlot : Slot → Fetched
  | .code b0 b1 b2 b3 =>
    match decode [b0, b1, b2, b3] with
    | .ok (i, _) => .accessor i
    | .error e => .nothing (.undecodable e)
  | .named a => .named a

/-- Fetch at the pc (rules R58, R81, R90). -/
def fetch (s : State) : Fetched :=
  if pcAligned s.pc then
    match slotAt s.program s.pc.toNat with
    | some v => readSlot v
    | none => .nothing (.noInstructionAt s.pc.toNat)
  else .nothing .pcMisaligned

/-- Place a program slot from outside the machine. -/
def State.loadSlot (s : State) (a : Nat) (v : Slot) : State :=
  { s with program := setSlot s.program a v }

/-- The outside world sets the inputs of the next step (rule R203: no constraint). -/
def State.withInputs (s : State) (i : Inputs) : State :=
  { s with inputs := i }

/-- After a completed step the next scheduled inputs come into force; with none scheduled they stay (rule R207: each step
reads their current value). -/
def State.takeInputs (s : State) : State :=
  match s.schedule with
  | [] => s
  | i :: rest => { s with inputs := i, schedule := rest }

/-- A step's outcome with the next inputs in force where it completed. -/
def thenTakeInputs : Result → Result
  | .next s => .next s.takeInputs
  | .fault f => .fault f
  | .refused r => .refused r

end Sys2Proof.Machine
end

