-- ==== Sys2Proof/Machine/TrapControls.lean ====
section
/-! DEFINITION. The trap function of HDFGWTR2_EL2 over accesses identified by register name (41_trap_controls.md). -/

namespace Sys2Proof.Machine

/-- The two condition classes of rule R132. -/
inductive TrapClass where
  /-- `EL1_ONLY`. -/
  | el1Only
  /-- `EL1_EL0`. -/
  | el1AndEl0
  deriving DecidableEq, Repr

/-- The class of each field (rules R132, R134; bit 22 as the source has it, conflict C10). -/
def Field.trapClass : Field → TrapClass
  | .nTRBMPAM_EL1 => .el1AndEl0
  | .nPMZR_EL0 => .el1AndEl0
  | .nTRCITECR_EL1 => .el1Only
  | .nPMSDSFR_EL1 => .el1Only
  | .nSPMSCR_EL1 => .el1Only
  | .nSPMACCESSR_EL1 => .el1Only
  | .nSPMCR_EL0 => .el1AndEl0
  | .nSPMOVS => .el1AndEl0
  | .nSPMINTEN => .el1Only
  | .nSPMCNTEN => .el1AndEl0
  | .nSPMSELR_EL0 => .el1AndEl0
  | .nSPMEVTYPERn_EL0 => .el1AndEl0
  | .nSPMEVCNTRn_EL0 => .el1AndEl0
  | .nPMSSCR_EL1 => .el1Only
  | .nMDSELR_EL1 => .el1Only
  | .nPMUACR_EL1 => .el1Only
  | .nPMICFILTR_EL0 => .el1AndEl0
  | .nPMICNTR_EL0 => .el1AndEl0
  | .nPMIAR_EL1 => .el1Only
  | .nPMECR_EL1 => .el1Only

/-- The field that governs a register, where one does (rule R134; rules R136 to R155). -/
def governingField : NamedReg → Option Field
  | .trbmpamEl1 => some .nTRBMPAM_EL1
  | .pmzrEl0 => some .nPMZR_EL0
  | .trcitecrEl1 => some .nTRCITECR_EL1
  | .pmsdsfrEl1 => some .nPMSDSFR_EL1
  | .spmscrEl1 => some .nSPMSCR_EL1
  | .spmaccessrEl1 => some .nSPMACCESSR_EL1
  | .spmcrEl0 => some .nSPMCR_EL0
  | .spmovslrEl0 => some .nSPMOVS
  | .spmovsetEl0 => some .nSPMOVS
  | .spmintenclrEl1 => some .nSPMINTEN
  | .spmintensetEl1 => some .nSPMINTEN
  | .spmcntenclrEl0 => some .nSPMCNTEN
  | .spmcntensetEl0 => some .nSPMCNTEN
  | .spmselrEl0 => some .nSPMSELR_EL0
  | .spmevtyperEl0 _ => some .nSPMEVTYPERn_EL0
  | .spmevfiltrEl0 _ => some .nSPMEVTYPERn_EL0
  | .spmevfilt2rEl0 _ => some .nSPMEVTYPERn_EL0
  | .spmevcntrEl0 _ => some .nSPMEVCNTRn_EL0
  | .pmsscrEl1 => some .nPMSSCR_EL1
  | .mdselrEl1 => some .nMDSELR_EL1
  | .pmuacrEl1 => some .nPMUACR_EL1
  | .pmicfiltrEl0 => some .nPMICFILTR_EL0
  | .pmicntrEl0 => some .nPMICNTR_EL0
  | .pmiarEl1 => some .nPMIAR_EL1
  | .pmecrEl1 => some .nPMECR_EL1
  | .pmcntenclrEl0 => none
  | .pmcntensetEl0 => none
  | .pmovsclrEl0 => none
  | .pmovsetEl0 => none
  | .pmintenclrEl1 => none
  | .pmintensetEl1 => none
  | .other _ => none

/-- The event counter a register of the four families belongs to (rules R147, R148). -/
def eventCounter : NamedReg → Option Nat
  | .spmevtyperEl0 n => some n
  | .spmevfiltrEl0 n => some n
  | .spmevfilt2rEl0 n => some n
  | .spmevcntrEl0 n => some n
  | _ => none

/-- `Eff(b)` of rule R131: 0 while EL3 is implemented and `SCR_EL3.FGTEn2` is 0, else the stored bit. -/
def eff (s : State) (f : Field) : Bool :=
  if s.cfg.haveEl3 && !s.inputs.scrFGTEn2 then false else s.hdfgwtr2.getLsbD f.bit

/-- `HCR_EL2.{E2H, TGE} != {1, 1}` (rule R6). -/
def e2hTgeNotBothSet (i : Inputs) : Bool :=
  !(i.hcrE2H && i.hcrTGE)

/-- `PSTATE.EL` is EL1 or EL0. -/
def atEl1OrEl0 (i : Inputs) : Bool :=
  i.el == .el1 || i.el == .el0

/-- `TrapCond_EL1_ONLY` and `TrapCond_EL1_EL0` of rule R132, by the field's class. -/
def trapCond (s : State) (f : Field) : Bool :=
  match f.trapClass with
  | .el1Only => s.inputs.el == .el1 && s.inputs.el2Enabled && !eff s f
  | .el1AndEl0 => atEl1OrEl0 s.inputs && s.inputs.el2Enabled && e2hTgeNotBothSet s.inputs && !eff s f

/-- `Cond3` (rule R152, for bit 3) and `Cond2` (rule R153, for bit 2). -/
def f0Cond (s : State) (f : Field) : Bool :=
  s.inputs.el2Enabled && e2hTgeNotBothSet s.inputs && !eff s f && s.cfg.featFGT2 && f.existsIn s.cfg

/-- `F0IgnoresThisWrite` for a write of the register: bit 2 over PMZR_EL0 (rule R153), bit 3 over four `_EL0` and two
`_EL1` registers (rule R152, read as decision D19 reads it). -/
def f0IgnoresThisWrite (s : State) : NamedReg → Bool
  | .pmzrEl0 => atEl1OrEl0 s.inputs && f0Cond s .nPMICNTR_EL0
  | .pmcntenclrEl0 => atEl1OrEl0 s.inputs && f0Cond s .nPMICFILTR_EL0
  | .pmcntensetEl0 => atEl1OrEl0 s.inputs && f0Cond s .nPMICFILTR_EL0
  | .pmovsclrEl0 => atEl1OrEl0 s.inputs && f0Cond s .nPMICFILTR_EL0
  | .pmovsetEl0 => atEl1OrEl0 s.inputs && f0Cond s .nPMICFILTR_EL0
  | .pmintenclrEl1 => s.inputs.el == .el1 && f0Cond s .nPMICFILTR_EL0
  | .pmintensetEl1 => s.inputs.el == .el1 && f0Cond s .nPMICFILTR_EL0
  | _ => false

/-- The result of the trap function (rule R157). -/
inductive CheckResult where
  | raises (f : Fault)
  | notTrappedHere (f0IgnoresThisWrite : Bool)
  deriving DecidableEq, Repr

/-- The register names an event counter that is not implemented (rules R147, R148). -/
def counterMissing (s : State) (r : NamedReg) : Bool :=
  match eventCounter r with
  | some n => !s.cfg.spmuEventCounterImplemented n
  | none => false

/-- What a field that exists does to a write of a register it governs, in the order of rule R176. -/
def governedCheck (s : State) (r : NamedReg) (f : Field) : CheckResult :=
  if counterMissing s r then .raises undefinedFault
  else match s.inputs.higherPriority with
    | some e => .raises (.other e)
    | none =>
      if trapCond s f then .raises (trapFault .el2)
      else .notTrappedHere (f0IgnoresThisWrite s r)

/-- `Fgt2WriteCheck` of rule R157. -/
def fgt2WriteCheck (s : State) (r : NamedReg) : CheckResult :=
  if s.cfg.featFGT2 then
    match governingField r with
    | none => .notTrappedHere (f0IgnoresThisWrite s r)
    | some f =>
      if f.existsIn s.cfg then governedCheck s r f
      else .notTrappedHere (f0IgnoresThisWrite s r)
  else .notTrappedHere false

/-- A step that is an access identified by name. A read is never affected by this register (rule R130). A write raises
what the trap function raises; where it raises nothing its effect is in no source (rule R135), and in Debug state the
field rules are not applied (rule R185). -/
def execNamed (a : NamedAccess) (s : State) : Result :=
  match a.dir with
  | .read => .refused .namedReadNotGoverned
  | .write =>
    if s.inputs.halted then .refused .namedWriteInDebugState
    else match fgt2WriteCheck s a.reg with
      | .raises f => raise f
      | .notTrappedHere b => .refused (.notTrappedHere b)

end Sys2Proof.Machine
end

