-- ==== Sys2Proof/Machine/Step.lean ====
section
/-! DEFINITION. One step: the execution of one accessor or of one access identified by name (rule R174). -/

namespace Sys2Proof.Machine

/-- One step of the machine. -/
def step (s : State) : Host.Outcome State Fault Refusal :=
  match fetch s with
  | .accessor i => thenTakeInputs (exec i s)
  | .named a => thenTakeInputs (execNamed a s)
  | .nothing r => .refused r

/-- The state with one instruction of `nbits` bits `w` where the next step fetches. A pc that is not aligned is moved
down to its word, since nothing is fetched from any other. -/
def State.withFetchWord (s : State) (nbits w : Nat) : State :=
  { s with
    pc := alignPc s.pc
    program := setSlot s.program (alignPc s.pc).toNat (codeSlot (tableWord nbits w)) }

end Sys2Proof.Machine
end

