-- ==== Sys2Proof/Machine/Entry.lean ====
section
/-! DEFINITION. What the spec records of exception entry FOR ORIENTATION ONLY (rules R171, R172, R177). No step uses it:
the spec's step relation ends at the outcome (rule R170). PRESUMED (log entry 12): every value here is general knowledge
by the spec's own mark (93_implementation_defined.md G7, G10). Where the spec gives no value even for orientation, in
Debug state and for an exception taken to the current level, the records hold none: DESIGN CHOICE (log entry 37). -/

namespace Sys2Proof.Machine

/-- The ISS of a trapped accessor (rule R171): Op0, Op2, Op1, CRn, Rt, CRm, Direction. -/
def accessorIss (i : Instr) : BitVec 25 :=
  match i with
  | .mrs t => 0#3 ++ sysOp0 ++ sysOp2 ++ sysOp1 ++ sysCRn ++ t ++ sysCRm ++ 1#1
  | .msr t => 0#3 ++ sysOp0 ++ sysOp2 ++ sysOp1 ++ sysCRn ++ t ++ sysCRm ++ 0#1

/-- `ESR_ELx`: EC in bits 31:26, IL = 1 in bit 25, ISS in bits 24:0 (rule R171). -/
def esrValue (ec : BitVec 6) (iss : BitVec 25) : BitVec 32 :=
  ec ++ 1#1 ++ iss

/-- What rule R177 says of an exception taken "from a lower Exception level using AArch64", and of no other. -/
structure LowerLevelEntry where
  /-- `ELR_ELx`: the address of the instruction that raised it. -/
  returnAddress : Word64
  /-- `PSTATE.SP` at the handler. -/
  sp : Bool
  /-- `PSTATE.{D,A,I,F}` at the handler. -/
  daif : BitVec 4
  /-- The offset from `VBAR_ELx`. -/
  vectorOffset : Word64
  deriving DecidableEq, Repr

/-- The record a model of exception entry from another source would start from. -/
structure EntryRecord where
  /-- The Exception level the exception is taken to. -/
  target : EL
  ec : BitVec 6
  iss : BitVec 25
  /-- None for an exception taken to the current level, of which rule R177 says nothing. DESIGN CHOICE (log entry 37). -/
  fromLower : Option LowerLevelEntry
  deriving DecidableEq, Repr

/-- Whether the first level is below the second. -/
def EL.below : EL → EL → Bool
  | .el0, .el0 => false
  | .el0, _ => true
  | .el1, .el2 => true
  | .el1, .el3 => true
  | .el2, .el3 => true
  | _, _ => false

/-- Where an UNDEFINED is taken (rule R172): from EL0 to EL1, or to EL2 with `HCR_EL2.TGE`; else to the current level.
Outside Debug state only: there "it is handled by the debug rules instead", and `entryRecord` does not ask. -/
def undefinedTarget (i : Inputs) : EL :=
  match i.el with
  | .el0 => if i.hcrTGE then .el2 else .el1
  | .el1 => .el1
  | .el2 => .el2
  | .el3 => .el3

/-- What rule R177 says of the entry from a lower level, for the instruction at the pc. -/
def lowerLevelEntry (s : State) : LowerLevelEntry where
  returnAddress := s.pc
  sp := true
  daif := 0b1111#4
  vectorOffset := 0x400

/-- The entry record with these parts. For an exception taken to the current level it holds no return address, stack
pointer, masks or vector, none of which the spec gives. DESIGN CHOICE (log entry 37). -/
def entryTo (s : State) (target : EL) (ec : BitVec 6) (iss : BitVec 25) : EntryRecord where
  target := target
  ec := ec
  iss := iss
  fromLower := if s.inputs.el.below target then some (lowerLevelEntry s) else none

/-- The entry record of a fault an accessor raised; none for `Other(e)`, of which nothing is known. While `Halted()` holds
there is none either: how an `Undefined` or a `Trap` is handled in Debug state is not in the source (rule R185), and "the
model gives the outcome and nothing after it". DESIGN CHOICE (log entry 37): no ordinary entry is assumed there. -/
def entryRecord (i : Instr) (f : Fault) (s : State) : Option EntryRecord :=
  if s.inputs.halted then none
  else match f with
    | .undefined => some (entryTo s (undefinedTarget s.inputs) 0 0)
    | .systemAccessTrap target ec => some (entryTo s target ec (accessorIss i))
    | .other _ => none

end Sys2Proof.Machine
end

