-- ==== Sys2Proof/WellFormed.lean ====
section
/-! DEFINITION. The checks on terms that the types do not make. An instruction has none: its one operand is a 5-bit
number, and all 32 values are legal for both rows (rule R98). -/

namespace Sys2Proof

/-- `RES0_STORAGE_MASK AND FIELD_MASK == 0` (rule R23). -/
def Config.storageWf (c : Config) : Bool :=
  (c.res0StorageMask &&& Machine.fieldMask c) == 0

/-- The implementation leaves bit 5 out only where rule R41 lets it. -/
def Config.nmdselrWf (c : Config) : Bool :=
  c.nmdselrChoice || c.nmdselrMayBeAbsent

/-- A configuration within the constraints rule R5 states. -/
def Config.wellFormed (c : Config) : Bool :=
  c.storageWf && c.nmdselrWf

/-- A program: 64-bit, 4-byte-aligned addresses (rule R58), strictly rising. -/
abbrev programWf (p : List (Nat × Slot)) : Prop :=
  p.Pairwise (fun a b => a.1 < b.1) ∧ ∀ c ∈ p, c.1 < 2 ^ 64 ∧ c.1 % 4 = 0

/-- Inputs within what the spec says of them: `NVBase` is 4096-byte aligned (rule R71), and level EL3 is current only
where EL3 is implemented. -/
def Machine.Inputs.wellFormed (c : Config) (i : Machine.Inputs) : Bool :=
  i.nvBase.extractLsb' 0 12 == 0 && (c.haveEl3 || i.el != .el3)

end Sys2Proof
end

