-- ==== Sys2Proof/Safety.lean ====
section
/-! DEFINITION. What claims mean by a good state, a safe step and a run, and the rows of the outcome table as claims name
them. -/

namespace Sys2Proof.Machine

/-- A hardwired reserved bit of the register is 0 (rule R23): every set bit is a field or a storage bit. -/
abbrev ReservedBitsHold (s : State) : Prop :=
  s.hdfgwtr2 &&& ~~~ storedMask s.cfg = 0#64

/-- The invariant of the machine: memory keeps its canonical form, hardwired reserved bits stay 0 (rule R23), the pc stays
4-byte aligned (rule R58), and the program keeps its form. -/
structure Inv (s : State) : Prop where
  mem : Memory.wf s.mem
  reserved : ReservedBitsHold s
  pc : pcAligned s.pc = true
  program : programWf s.program

/-- A step the spec gives meaning to: it completes or ends in an outcome of rule R170, and is not refused. -/
def InSpec (s : State) : Prop :=
  ∀ r, step s ≠ .refused r

/-- `s` reaches `s'` by completed steps. -/
inductive Reaches : State → State → Prop where
  | refl (s : State) : Reaches s s
  | step {s s' t : State} (h : Machine.step s = .next s') (hr : Reaches s' t) : Reaches s t

/-- Rows 6, 7 and 11 of rule R121: the access is to the register. -/
abbrev RegisterRow (s : State) : Prop :=
  s.inputs.el = .el3 ∨ (s.inputs.el = .el2 ∧ (s.cfg.haveEl3 = false ∨ s.inputs.scrFGTEn2 = true))

/-- Row 5 of rule R121: the access is to `NVMem[0x1B0]`. -/
abbrev MemoryRow (s : State) : Prop :=
  s.inputs.el = .el1 ∧ s.inputs.el2Enabled = true ∧ s.inputs.hcrNV = true ∧ s.inputs.hcrNV2 = true

/-- Row 4 of rule R121: `Trap(EL2, 0x18)`. -/
abbrev TrapToEl2Row (s : State) : Prop :=
  s.inputs.el = .el1 ∧ s.inputs.el2Enabled = true ∧ s.inputs.hcrNV = true ∧ s.inputs.hcrNV2 = false

/-- Rows 8 and 9 of rule R121: `Trap(EL3, 0x18)`. -/
abbrev TrapToEl3Row (s : State) : Prop :=
  s.inputs.el = .el2 ∧ s.cfg.haveEl3 = true ∧ s.inputs.scrFGTEn2 = false ∧
    (s.inputs.halted = false ∨ s.inputs.edscrSDD = false)

/-- Rows 1, 2, 3 and 10 of rule R121: `Undefined`. -/
abbrev UndefinedRow (s : State) : Prop :=
  s.inputs.el = .el0 ∨
  (s.inputs.el = .el1 ∧ (s.inputs.el2Enabled = false ∨ s.inputs.hcrNV = false)) ∨
  (s.inputs.el = .el2 ∧ s.cfg.haveEl3 = true ∧ s.inputs.scrFGTEn2 = false ∧
    s.inputs.halted = true ∧ s.inputs.edscrSDD = true)

/-- `HCR_EL2.{E2H, TGE} == {1, 1}` (rule R6). -/
abbrev E2hTgeBothSet (s : State) : Prop :=
  s.inputs.hcrE2H = true ∧ s.inputs.hcrTGE = true

/-- The stored bits are ignored by trap decisions: EL3 is implemented and `SCR_EL3.FGTEn2` is 0 (rule R131). -/
abbrev FieldsTreatedAsZero (s : State) : Prop :=
  s.cfg.haveEl3 = true ∧ s.inputs.scrFGTEn2 = false

/-- The bit at position `b` acts as 0 in a trap decision (rule R131), by position. -/
abbrev ActsAsZero (s : State) (b : Nat) : Prop :=
  FieldsTreatedAsZero s ∨ s.hdfgwtr2.getLsbD b = false

/-- The address range of the memory copy: the 8 bytes from `NVBase + 0x1B0` (rules R70, R71). -/
abbrev InMemoryCopy (s : State) (a : Nat) : Prop :=
  s.nvAddr ≤ a ∧ a < s.nvAddr + 8

end Sys2Proof.Machine
end

