-- ==== Sys2Proof/Certificates/Slice0/Obligations.lean ====
section
/-! DEFINITION. The statements for the provers. -/

open Sys2Proof Sys2Proof.Machine

/-! ### Encoding and the step -/

/-- The words of vectors E1, E4, E5, E7 and E8 of 95_test_vectors.md, as bytes in order of address. -/
def Obligations.WrittenOutWordsDecode : Prop :=
  decode [0x20#8, 0x31#8, 0x3C#8, 0xD5#8] = .ok (.mrs 0, []) ∧
  decode [0x3F#8, 0x31#8, 0x3C#8, 0xD5#8] = .ok (.mrs 31, []) ∧
  decode [0x20#8, 0x31#8, 0x1C#8, 0xD5#8] = .ok (.msr 0, []) ∧
  decode [0x3F#8, 0x31#8, 0x1C#8, 0xD5#8] = .ok (.msr 31, []) ∧
  decode [0x00#8, 0x31#8, 0x3C#8, 0xD5#8] = .error (.notAnAccessor 0xD53C3100#32)

/-- The bytes the encoder writes from the field layout (30_encoding.md section 1) decode to the same instruction, and the
bytes after them are left. -/
def Obligations.DecodeOfEncodeIsIdentity : Prop :=
  ∀ (i : Instr) (rest : List Byte), decode (encode i ++ rest) = .ok (i, rest)

/-- A word decodes to an instruction exactly when it is that instruction's encoding, the two words are the constants of
30_encoding.md section 1 with `t` in their low five bits, and any other word is refused under its own name. -/
def Obligations.DecodedWordIsTheEncoding : Prop :=
  (∀ t : RegNum, encodeWord (.mrs t) = (0xD53C3120#32 ||| t.setWidth 32) ∧
    encodeWord (.msr t) = (0xD51C3120#32 ||| t.setWidth 32)) ∧
  (∀ (w : InstrWord) (i : Instr), decodeWord w = .ok i ↔ w = encodeWord i) ∧
  (∀ w : InstrWord, (∀ i : Instr, w ≠ encodeWord i) ↔ decodeWord w = .error (.notAnAccessor w))

/-- A step where the bytes at the pc decode is the instruction's own outcome; where it completes, the next scheduled
inputs then come into force, and nothing else is added. That inputs are scheduled in the state is the model's choice (log
entry 8); that the program stands apart from memory is the spec's decision D13. -/
def Obligations.StepRunsTheDecodedInstruction : Prop :=
  ∀ (s : State) (b0 b1 b2 b3 : Byte) (i : Instr) (rest : List Byte),
    pcAligned s.pc = true → slotAt s.program s.pc.toNat = some (.code b0 b1 b2 b3) →
    decode [b0, b1, b2, b3] = .ok (i, rest) →
    (∀ t, exec i s = .next t →
      (t.schedule = [] → step s = .next t) ∧
      (∀ e es, t.schedule = e :: es → step s = .next { t with inputs := e, schedule := es })) ∧
    (∀ f, exec i s = .fault f → step s = .fault f) ∧
    (∀ r, exec i s = .refused r → step s = .refused r)

/-- Bytes at the pc that are neither `0xD53C3120 OR t` nor `0xD51C3120 OR t` end the step in a refusal that names the
word: no no-op, and not UNDEFINED (30_encoding.md section 3). -/
def Obligations.StepRefusesEveryOtherWord : Prop :=
  ∀ (s : State) (b0 b1 b2 b3 : Byte),
    pcAligned s.pc = true → slotAt s.program s.pc.toNat = some (.code b0 b1 b2 b3) →
    (∀ t : RegNum, b3 ++ b2 ++ b1 ++ b0 ≠ 0xD53C3120#32 ||| t.setWidth 32) →
    (∀ t : RegNum, b3 ++ b2 ++ b1 ++ b0 ≠ 0xD51C3120#32 ||| t.setWidth 32) →
    step s = .refused (.undecodable (.notAnAccessor (b3 ++ b2 ++ b1 ++ b0)))

/-- A step whose slot is an access identified by name is that access (60_exceptions.md section 3). That such an access
stands in the program by name is the model's choice (log entry 9). -/
def Obligations.StepRunsTheNamedAccess : Prop :=
  ∀ (s : State) (a : NamedAccess),
    pcAligned s.pc = true → slotAt s.program s.pc.toNat = some (.named a) → step s = execNamed a s

/-- A word placed for the next step is what that step fetches, whatever the program held, and the placing changes only
the program at that address. How a program is placed is the model's choice (log entry 10). -/
def Obligations.PlacedWordIsFetched : Prop :=
  ∀ (s : State) (i : Instr), pcAligned s.pc = true →
    let t := s.withFetchWord 32 (encodeWord i).toNat
    fetch t = .accessor i ∧ { t with program := s.program } = s ∧
    ∀ a, a ≠ s.pc.toNat → slotAt t.program a = slotAt s.program a

/-! ### The accessors -/

/-- `MRS` in the register rows of the outcome table (40_register_access.md section 4) completes with `X[t]` the stored
register and everything else but the pc unchanged; for `t = 31` nothing is written at all. The pc clause is the spec's
decision D5, the stored value its decision D29, the zero register its decision D4. -/
def Obligations.MrsReadsTheRegister : Prop :=
  ∀ (t : RegNum) (s : State), s.cfg.featFGT2 = true → RegisterRow s →
    ∃ s', exec (.mrs t) s = .next s' ∧
      (t ≠ 31#5 → s'.readX t = s.hdfgwtr2) ∧ s'.readX 31#5 = 0#64 ∧
      (∀ u, u ≠ t → s'.readX u = s.readX u) ∧ (t = 31#5 → s'.x = s.x) ∧
      s' = { s with x := s'.x, pc := s.pc + 4 }

/-- `MRS` in the memory row completes with `X[t]` the 8 bytes at `NVBase + 0x1B0`, unmasked and in the parameter's byte
order, and everything else but the pc unchanged. What `NVMem` is, its byte order and the pc clause are the spec's decisions
D7, D8 and D5. -/
def Obligations.MrsReadsTheMemoryCopy : Prop :=
  ∀ (t : RegNum) (s : State), s.cfg.featFGT2 = true → MemoryRow s →
    nvBaseAligned s.inputs.nvBase = true → s.inputs.nvMemFault = none →
    ∃ s', exec (.mrs t) s = .next s' ∧
      (t ≠ 31#5 → ∀ k, k < 8 →
        (s'.readX t).extractLsb' (8 * (if s.cfg.nvmemBigEndian then 7 - k else k)) 8 = readByte s.mem (s.nvAddr + k)) ∧
      s'.readX 31#5 = 0#64 ∧
      (∀ u, u ≠ t → s'.readX u = s.readX u) ∧ (t = 31#5 → s'.x = s.x) ∧
      s' = { s with x := s'.x, pc := s.pc + 4 }

/-- `MSR` in the register rows completes: at every field of the implementation the register takes the bit of `X[t]`, at
every storage reserved bit too, and every other bit becomes 0, whatever stood there; everything else but the pc is
unchanged. The treatment of reserved bits is the spec's decision D1, the pc clause its decision D5. -/
def Obligations.MsrWritesTheRegister : Prop :=
  ∀ (t : RegNum) (s : State), s.cfg.featFGT2 = true → RegisterRow s →
    ∃ s', exec (.msr t) s = .next s' ∧
      (∀ f : Field, f.existsIn s.cfg = true → s'.hdfgwtr2.getLsbD f.bit = (s.readX t).getLsbD f.bit) ∧
      (∀ b, s.cfg.res0StorageMask.getLsbD b = true → s'.hdfgwtr2.getLsbD b = (s.readX t).getLsbD b) ∧
      (∀ b, (∀ f : Field, f.existsIn s.cfg = true → f.bit ≠ b) → s.cfg.res0StorageMask.getLsbD b = false →
        s'.hdfgwtr2.getLsbD b = false) ∧
      s' = { s with hdfgwtr2 := s'.hdfgwtr2, pc := s.pc + 4 }

/-- `MSR` in the memory row completes: the 8 bytes at `NVBase + 0x1B0` take all 64 bits of `X[t]`, unmasked and in the
parameter's byte order, every other byte of memory reads as before, and the register and everything else but the pc is
unchanged. What `NVMem` is, its byte order and the pc clause are the spec's decisions D7, D8 and D5. -/
def Obligations.MsrWritesTheMemoryCopy : Prop :=
  ∀ (t : RegNum) (s : State), s.cfg.featFGT2 = true → MemoryRow s →
    nvBaseAligned s.inputs.nvBase = true → s.inputs.nvMemFault = none →
    ∃ s', exec (.msr t) s = .next s' ∧
      (∀ k, k < 8 → readByte s'.mem (s.nvAddr + k) =
        (s.readX t).extractLsb' (8 * (if s.cfg.nvmemBigEndian then 7 - k else k)) 8) ∧
      (∀ a, ¬ InMemoryCopy s a → readByte s'.mem a = readByte s.mem a) ∧
      s' = { s with mem := s'.mem, pc := s.pc + 4 }

/-- The raising rows of the outcome table, the same for both accessors and every `t`, and an access the oracle faults in
the memory row. The class and the outcomes are the spec's decisions D6, D17 and D30. -/
def Obligations.AccessorsRaiseByTheTable : Prop :=
  ∀ (i : Instr) (s : State), s.cfg.featFGT2 = true →
    (UndefinedRow s → exec i s = .fault .undefined) ∧
    (TrapToEl2Row s → exec i s = .fault (.systemAccessTrap .el2 0x18#6)) ∧
    (TrapToEl3Row s → exec i s = .fault (.systemAccessTrap .el3 0x18#6)) ∧
    (∀ e, MemoryRow s → nvBaseAligned s.inputs.nvBase = true → s.inputs.nvMemFault = some e →
      exec i s = .fault (.other e))

/-- The rows of the outcome table are exhaustive and exclude each other (40_register_access.md section 4). -/
def Obligations.OutcomeRowsPartition : Prop :=
  ∀ s : State,
    (RegisterRow s ∨ MemoryRow s ∨ TrapToEl2Row s ∨ TrapToEl3Row s ∨ UndefinedRow s) ∧
    ¬ (RegisterRow s ∧ (MemoryRow s ∨ TrapToEl2Row s ∨ TrapToEl3Row s ∨ UndefinedRow s)) ∧
    ¬ (MemoryRow s ∧ (TrapToEl2Row s ∨ TrapToEl3Row s ∨ UndefinedRow s)) ∧
    ¬ (TrapToEl2Row s ∧ (TrapToEl3Row s ∨ UndefinedRow s)) ∧
    ¬ (TrapToEl3Row s ∧ UndefinedRow s)

/-- Rule R112: with the register absent, both words are UNDEFINED at every Exception level and under every value of the
other inputs. -/
def Obligations.AbsentRegisterIsUndefined : Prop :=
  ∀ (t : RegNum) (s : State) (i : Instr), s.cfg.featFGT2 = false →
    (decodeWord (0xD53C3120#32 ||| t.setWidth 32) = .ok i ∨ decodeWord (0xD51C3120#32 ||| t.setWidth 32) = .ok i) →
    exec i s = .fault .undefined

/-- The implementation-defined Boolean changes no outcome of either accessor (40_register_access.md section 3). -/
def Obligations.TrapPriorityBooleanUnobservable : Prop :=
  ∀ (i : Instr) (s : State) (b : Bool),
    let c := { s.cfg with impdefEl3TrapPrioritySdd := b }
    (∀ t, exec i s = .next t → exec i { s with cfg := c } = .next { t with cfg := c }) ∧
    (∀ f, exec i s = .fault f → exec i { s with cfg := c } = .fault f) ∧
    (∀ r, exec i s = .refused r → exec i { s with cfg := c } = .refused r)

/-- The zero register (the spec's decision D4): `MSR HDFGWTR2_EL2, XZR` leaves the register 0, and `MRS XZR` changes the
pc alone. -/
def Obligations.ZeroRegisterAccesses : Prop :=
  ∀ s : State, s.cfg.featFGT2 = true → RegisterRow s →
    exec (.msr 31#5) s = .next { s with hdfgwtr2 := 0#64, pc := s.pc + 4 } ∧
    exec (.mrs 31#5) s = .next { s with pc := s.pc + 4 }

/-- What both accessors leave unchanged wherever they complete: the configuration, the program, the inputs and the draws;
`MRS` the register, memory and every other general register; `MSR` every general register, and of the register and memory
one, with every byte outside the memory copy. -/
def Obligations.AccessorFrame : Prop :=
  (∀ (t : RegNum) (s s' : State), exec (.mrs t) s = .next s' →
    s' = { s with x := s'.x, pc := s'.pc } ∧ ∀ u, u ≠ t → s'.readX u = s.readX u) ∧
  (∀ (t : RegNum) (s s' : State), exec (.msr t) s = .next s' →
    s' = { s with hdfgwtr2 := s'.hdfgwtr2, mem := s'.mem, pc := s'.pc } ∧
    (s.inputs.el = .el1 → s'.hdfgwtr2 = s.hdfgwtr2) ∧
    (s.inputs.el ≠ .el1 → s'.mem = s.mem) ∧
    ∀ a, ¬ InMemoryCopy s a → readByte s'.mem a = readByte s.mem a)

/-- A read after a write, with nothing between, gives what the write stored: at EL2 or EL3 the value of `X[a]` without the
bits no field or storage bit holds, through the memory copy all 64 bits (70_reset_and_hazards.md section 3; the spec's
decision D12). -/
def Obligations.ReadAfterWrite : Prop :=
  ∀ (a b : RegNum) (s : State), s.cfg.featFGT2 = true → b ≠ 31#5 →
    (RegisterRow s → ∃ s' s'', exec (.msr a) s = .next s' ∧ exec (.mrs b) s' = .next s'' ∧
      s''.readX b = s.readX a &&& storedMask s.cfg) ∧
    (MemoryRow s → nvBaseAligned s.inputs.nvBase = true → s.inputs.nvMemFault = none →
      ∃ s' s'', exec (.msr a) s = .next s' ∧ exec (.mrs b) s' = .next s'' ∧ s''.readX b = s.readX a)

/-- The address sum of the memory copy never carries and the access is aligned and inside the address space; a base that
is not 4096-byte aligned is refused (20_memory.md sections 1 and 2; the spec's decisions D7 and D9; log entry 11). -/
def Obligations.MemoryCopyIsAligned : Prop :=
  (∀ s : State, nvBaseAligned s.inputs.nvBase = true →
    s.nvAddr = (s.inputs.nvBase ||| 0x1B0#64).toNat ∧ s.nvAddr % 8 = 0 ∧ s.nvAddr + 8 ≤ 2 ^ 64) ∧
  (∀ (i : Instr) (s : State), s.cfg.featFGT2 = true → MemoryRow s → s.inputs.nvBase.toNat % 4096 ≠ 0 →
    exec i s = .refused .nvBaseMisaligned)

/-- An accessor at the pc is never refused, but for a base the spec excludes: it completes or raises. -/
def Obligations.AccessorStepsStayInSpec : Prop :=
  ∀ (s : State) (b0 b1 b2 b3 : Byte) (i : Instr) (rest : List Byte),
    pcAligned s.pc = true → slotAt s.program s.pc.toNat = some (.code b0 b1 b2 b3) →
    decode [b0, b1, b2, b3] = .ok (i, rest) → nvBaseAligned s.inputs.nvBase = true → InSpec s

/-- EL0 and EL1 never reach the register, nor does EL2 while EL3 keeps it out: a step that changes it is an `MSR` at EL3,
or at EL2 with no EL3 or with `SCR_EL3.FGTEn2` 1 (10_state.md section 3). -/
def Obligations.OnlyMsrAtEl2OrEl3ChangesTheRegister : Prop :=
  ∀ s s' : State, step s = .next s' → s'.hdfgwtr2 ≠ s.hdfgwtr2 →
    RegisterRow s ∧ ∃ t, fetch s = .accessor (.msr t)

/-- What EL0, EL1 and a locked-out EL2 observe of an accessor does not depend on the register: two states that differ in
nothing else end the same, apart from the register itself (40_register_access.md section 3, 60_exceptions.md section 7). -/
def Obligations.RegisterHiddenBelowItsOwners : Prop :=
  ∀ (i : Instr) (s : State) (v : Word64), ¬ RegisterRow s →
    (∀ t, exec i s = .next t → exec i { s with hdfgwtr2 := v } = .next { t with hdfgwtr2 := v }) ∧
    (∀ f, exec i s = .fault f → exec i { s with hdfgwtr2 := v } = .fault f) ∧
    (∀ r, exec i s = .refused r → exec i { s with hdfgwtr2 := v } = .refused r)

/-! ### The trap function -/

/-- The effective value of a field is 0 exactly where its stored bit is 0 or the override holds, EL3 implemented and
`SCR_EL3.FGTEn2` 0 (41_trap_controls.md section 1); a trap decision reads the register through the effective values alone;
`MRS` at EL3 gives the stored bits, override or not (the spec's decision D29, log entry 26); and under the override a write
of a register of any existing field at EL1 is trapped with class 0x18, that of PMICFILTR_EL0 among them (the spec's
decision D18, log entry 13). -/
def Obligations.EffectiveValueDecidesTraps : Prop :=
  (∀ (s : State) (f : Field), eff s f = false ↔ ActsAsZero s f.bit) ∧
  (∀ (s s' : State) (r : NamedReg), s'.cfg = s.cfg → s'.inputs = s.inputs → (∀ f, eff s' f = eff s f) →
    fgt2WriteCheck s' r = fgt2WriteCheck s r) ∧
  (∀ (s : State) (t : RegNum), s.cfg.featFGT2 = true → s.inputs.el = .el3 → t ≠ 31#5 →
    ∃ s', exec (.mrs t) s = .next s' ∧ s'.readX t = s.hdfgwtr2 ∧ s'.hdfgwtr2 = s.hdfgwtr2) ∧
  (∀ (s : State) (r : NamedReg) (f : Field), FieldsTreatedAsZero s → s.cfg.featFGT2 = true →
    governingField r = some f → f.existsIn s.cfg = true → counterMissing s r = false →
    s.inputs.higherPriority = none → s.inputs.el = .el1 → s.inputs.el2Enabled = true → ¬ E2hTgeBothSet s →
    fgt2WriteCheck s r = .raises (.systemAccessTrap .el2 0x18#6))

/-- Rule R132: the ten fields of each class by bit, the condition of each class, and that but for bit 22 the class of a
governed register follows the suffix of its name. -/
def Obligations.TrapConditionsOfTheClasses : Prop :=
  (∀ f : Field, f.trapClass = .el1Only ↔ f.bit ∈ [20, 19, 16, 15, 12, 7, 5, 4, 1, 0]) ∧
  (∀ f : Field, f.trapClass = .el1AndEl0 ↔ f.bit ∈ [22, 21, 14, 13, 11, 10, 9, 8, 3, 2]) ∧
  (∀ (s : State) (f : Field), f.trapClass = .el1Only →
    (trapCond s f = true ↔ s.inputs.el = .el1 ∧ s.inputs.el2Enabled = true ∧ ActsAsZero s f.bit)) ∧
  (∀ (s : State) (f : Field), f.trapClass = .el1AndEl0 →
    (trapCond s f = true ↔ (s.inputs.el = .el1 ∨ s.inputs.el = .el0) ∧ s.inputs.el2Enabled = true ∧
      ¬ E2hTgeBothSet s ∧ ActsAsZero s f.bit)) ∧
  (∀ (r : NamedReg) (f : Field), governingField r = some f →
    (f.trapClass = .el1Only ↔ r ∈ [NamedReg.trcitecrEl1, .pmsdsfrEl1, .spmscrEl1, .spmaccessrEl1, .spmintenclrEl1,
      .spmintensetEl1, .pmsscrEl1, .mdselrEl1, .pmuacrEl1, .pmiarEl1, .pmecrEl1]))

/-- Where the field exists and its condition holds, the write is trapped to EL2 with class 0x18 (41_trap_controls.md
section 1; for bit 3 the spec's decision D18, log entry 13), unless an exception of higher priority is generated, which is
raised instead, and first of all the UNDEFINED of an event counter that is not implemented (its place before the oracle:
60_exceptions.md section 4, log entry 14; that it is a fault: the spec's decision D17, log entry 31); no trap of this
register goes anywhere but EL2; and the write outside Debug state ends in that fault, with no next state (the restriction:
the spec's decision D31, log entry 23). -/
def Obligations.SatisfiedConditionTrapsToEl2 : Prop :=
  (∀ (s : State) (r : NamedReg) (f : Field), s.cfg.featFGT2 = true → governingField r = some f →
    f.existsIn s.cfg = true → trapCond s f = true →
    (counterMissing s r = true → fgt2WriteCheck s r = .raises .undefined) ∧
    (counterMissing s r = false →
      (s.inputs.higherPriority = none → fgt2WriteCheck s r = .raises (.systemAccessTrap .el2 0x18#6)) ∧
      (∀ e, s.inputs.higherPriority = some e → fgt2WriteCheck s r = .raises (.other e)))) ∧
  (∀ (s : State) (r : NamedReg) (target : EL) (ec : BitVec 6),
    fgt2WriteCheck s r = .raises (.systemAccessTrap target ec) → target = .el2 ∧ ec = 0x18#6) ∧
  (∀ (s : State) (r : NamedReg) (t : RegNum) (f : Fault), s.inputs.halted = false →
    fgt2WriteCheck s r = .raises f → execNamed ⟨.write, r, t⟩ s = .fault f)

/-- Rules R138 to R141, R144, R149 to R151, R154 and R155: a write of each register of the ten class `EL1_ONLY` fields,
by the field's bit and its condition of existence. -/
def Obligations.El1OnlyFieldWrites : Prop :=
  ∀ (s : State) (r : NamedReg) (b : Nat) (ex : Bool),
    (r, b, ex) ∈
      [(NamedReg.trcitecrEl1, 20, s.cfg.featITE), (.pmsdsfrEl1, 19, s.cfg.featSPEFDS),
       (.spmscrEl1, 16, s.cfg.featSPMU), (.spmaccessrEl1, 15, s.cfg.featSPMU),
       (.spmintenclrEl1, 12, s.cfg.featSPMU), (.spmintensetEl1, 12, s.cfg.featSPMU),
       (.pmsscrEl1, 7, s.cfg.featPMUv3SS),
       (.mdselrEl1, 5, s.cfg.featDebugv8p9 && s.cfg.nmdselrFieldImplemented),
       (.pmuacrEl1, 4, s.cfg.featPMUv3p9), (.pmiarEl1, 1, s.cfg.featSEBEP),
       (.pmecrEl1, 0, s.cfg.featEBEP || s.cfg.featPMUv3SS)] →
    (¬ (s.cfg.featFGT2 = true ∧ ex = true) → fgt2WriteCheck s r = .notTrappedHere false) ∧
    (s.cfg.featFGT2 = true → ex = true →
      (∀ e, s.inputs.higherPriority = some e → fgt2WriteCheck s r = .raises (.other e)) ∧
      (s.inputs.higherPriority = none →
        (s.inputs.el = .el1 ∧ s.inputs.el2Enabled = true ∧ ActsAsZero s b →
          fgt2WriteCheck s r = .raises (.systemAccessTrap .el2 0x18#6)) ∧
        (¬ (s.inputs.el = .el1 ∧ s.inputs.el2Enabled = true ∧ ActsAsZero s b) →
          fgt2WriteCheck s r = .notTrappedHere false)))

/-- Rules R137, R142, R143, R145, R146 and R153: a write of each register of six class `EL1_EL0` fields, by the field's
bit and its condition of existence; and bit 2 makes `PMZR_EL0.F0` ignore a write of PMZR_EL0 that is not trapped. -/
def Obligations.El1AndEl0FieldWrites : Prop :=
  ∀ (s : State) (r : NamedReg) (b : Nat) (ex : Bool) (f0 : Bool),
    (r, b, ex) ∈
      [(NamedReg.pmzrEl0, 21, s.cfg.featPMUv3p9), (.spmcrEl0, 14, s.cfg.featSPMU),
       (.spmovslrEl0, 13, s.cfg.featSPMU), (.spmovsetEl0, 13, s.cfg.featSPMU),
       (.spmcntenclrEl0, 11, s.cfg.featSPMU), (.spmcntensetEl0, 11, s.cfg.featSPMU),
       (.spmselrEl0, 10, s.cfg.featSPMU), (.pmicntrEl0, 2, s.cfg.featPMUv3ICNTR)] →
    (f0 = true ↔ r = .pmzrEl0 ∧ (s.inputs.el = .el1 ∨ s.inputs.el = .el0) ∧ s.inputs.el2Enabled = true ∧
      ¬ E2hTgeBothSet s ∧ ActsAsZero s 2 ∧ s.cfg.featFGT2 = true ∧ s.cfg.featPMUv3ICNTR = true) →
    (¬ (s.cfg.featFGT2 = true ∧ ex = true) → fgt2WriteCheck s r = .notTrappedHere f0) ∧
    (s.cfg.featFGT2 = true → ex = true →
      (∀ e, s.inputs.higherPriority = some e → fgt2WriteCheck s r = .raises (.other e)) ∧
      (s.inputs.higherPriority = none →
        ((s.inputs.el = .el1 ∨ s.inputs.el = .el0) ∧ s.inputs.el2Enabled = true ∧ ¬ E2hTgeBothSet s ∧
            ActsAsZero s b →
          fgt2WriteCheck s r = .raises (.systemAccessTrap .el2 0x18#6)) ∧
        (¬ ((s.inputs.el = .el1 ∨ s.inputs.el = .el0) ∧ s.inputs.el2Enabled = true ∧ ¬ E2hTgeBothSet s ∧
            ActsAsZero s b) →
          fgt2WriteCheck s r = .notTrappedHere f0)))

/-- The four event-counter families (41_trap_controls.md section 3, bits 9 and 8). A counter that is not implemented is
UNDEFINED whatever the field, the oracle and the level; else the field of the family decides. That "undefined" is the fault
is the spec's decision D17; that it holds at every level is the model's reading of the pseudocode (log entry 14). -/
def Obligations.EventCounterFamilyWrites : Prop :=
  ∀ (s : State) (r : NamedReg) (n b : Nat),
    (r, b) ∈ [(NamedReg.spmevtyperEl0 n, 9), (.spmevfiltrEl0 n, 9), (.spmevfilt2rEl0 n, 9), (.spmevcntrEl0 n, 8)] →
    (¬ (s.cfg.featFGT2 = true ∧ s.cfg.featSPMU = true) → fgt2WriteCheck s r = .notTrappedHere false) ∧
    (s.cfg.featFGT2 = true → s.cfg.featSPMU = true →
      (n ∉ s.cfg.spmuEventCounters → fgt2WriteCheck s r = .raises .undefined) ∧
      (n ∈ s.cfg.spmuEventCounters →
        (∀ e, s.inputs.higherPriority = some e → fgt2WriteCheck s r = .raises (.other e)) ∧
        (s.inputs.higherPriority = none →
          ((s.inputs.el = .el1 ∨ s.inputs.el = .el0) ∧ s.inputs.el2Enabled = true ∧ ¬ E2hTgeBothSet s ∧
              ActsAsZero s b →
            fgt2WriteCheck s r = .raises (.systemAccessTrap .el2 0x18#6)) ∧
          (¬ ((s.inputs.el = .el1 ∨ s.inputs.el = .el0) ∧ s.inputs.el2Enabled = true ∧ ¬ E2hTgeBothSet s ∧
              ActsAsZero s b) →
            fgt2WriteCheck s r = .notTrappedHere false))))

/-- Bit 22, which governs an `_EL1` register and yet has the EL1-and-EL0 form (the spec's decision D23, log entry 24): a
write of TRBMPAM_EL1 is trapped at EL1 and EL0 where the bit acts as 0, never under `HCR_EL2.{E2H, TGE} == {1, 1}`, with
the bit at 1, with EL2 not enabled, above EL1, or with the field absent; and an oracle exception is raised whatever the
condition (its level: log entry 14; the absent field: the spec's decision D22, log entry 32). -/
def Obligations.TrbmpamWrites : Prop :=
  ∀ s : State,
    let cond := (s.inputs.el = .el1 ∨ s.inputs.el = .el0) ∧ s.inputs.el2Enabled = true ∧ ¬ E2hTgeBothSet s ∧
      ActsAsZero s 22
    (¬ (s.cfg.featFGT2 = true ∧ s.cfg.featTRBEMPAM = true) → fgt2WriteCheck s .trbmpamEl1 = .notTrappedHere false) ∧
    (s.cfg.featFGT2 = true → s.cfg.featTRBEMPAM = true →
      (∀ e, s.inputs.higherPriority = some e → fgt2WriteCheck s .trbmpamEl1 = .raises (.other e)) ∧
      (s.inputs.higherPriority = none →
        (cond → fgt2WriteCheck s .trbmpamEl1 = .raises (.systemAccessTrap .el2 0x18#6)) ∧
        (¬ cond → fgt2WriteCheck s .trbmpamEl1 = .notTrappedHere false)))

/-- Bit 3 as the spec reads its damaged row (its decisions D18, D19 and D20; log entry 13). A write of PMICFILTR_EL0 is
trapped with class 0x18 exactly where the condition holds and the field exists, unless the oracle gives an exception (its
level: log entry 14; the absent field: the spec's decision D22, log entry 32). The six registers with an `F0` field are
never trapped, and their `F0` ignores the write under the same condition at EL1 and EL0 (four of them) or at EL1 only (two
of them), and not where `FEAT_FGT2` or `FEAT_PMUv3_ICNTR` is absent. -/
def Obligations.PmicfiltrWritesAndF0 : Prop :=
  ∀ s : State,
    let present := s.cfg.featFGT2 = true ∧ s.cfg.featPMUv3ICNTR = true
    let low := s.inputs.el = .el1 ∨ s.inputs.el = .el0
    let cond := s.inputs.el2Enabled = true ∧ ¬ E2hTgeBothSet s ∧ ActsAsZero s 3
    (¬ present → fgt2WriteCheck s .pmicfiltrEl0 = .notTrappedHere false) ∧
    (present →
      (∀ e, s.inputs.higherPriority = some e → fgt2WriteCheck s .pmicfiltrEl0 = .raises (.other e)) ∧
      (s.inputs.higherPriority = none →
        (low ∧ cond → fgt2WriteCheck s .pmicfiltrEl0 = .raises (.systemAccessTrap .el2 0x18#6)) ∧
        (¬ (low ∧ cond) → fgt2WriteCheck s .pmicfiltrEl0 = .notTrappedHere false))) ∧
    (∀ r ∈ [NamedReg.pmcntenclrEl0, .pmcntensetEl0, .pmovsclrEl0, .pmovsetEl0],
      ∃ b, fgt2WriteCheck s r = .notTrappedHere b ∧ (b = true ↔ present ∧ low ∧ cond)) ∧
    (∀ r ∈ [NamedReg.pmintenclrEl1, .pmintensetEl1],
      ∃ b, fgt2WriteCheck s r = .notTrappedHere b ∧ (b = true ↔ present ∧ s.inputs.el = .el1 ∧ cond))

/-- Rule R25, while the stored bits count: a field at 1 never traps, and one at 0 traps the writes at EL1 where nothing else
prevents it; so the value 0 enables every trap of the implementation and
the value `FIELD_MASK` disables every one. -/
def Obligations.PolarityOfEveryField : Prop :=
  ∀ (s : State) (f : Field), ¬ FieldsTreatedAsZero s → f.existsIn s.cfg = true →
    (s.hdfgwtr2.getLsbD f.bit = true → trapCond s f = false) ∧
    (s.hdfgwtr2.getLsbD f.bit = false → s.inputs.el = .el1 → s.inputs.el2Enabled = true → ¬ E2hTgeBothSet s →
      trapCond s f = true) ∧
    (s.hdfgwtr2 = fieldMask s.cfg → trapCond s f = false) ∧
    (s.hdfgwtr2 = 0 → s.inputs.el = .el1 → s.inputs.el2Enabled = true → ¬ E2hTgeBothSet s → trapCond s f = true)

/-- PMZR_EL0 under bits 21 and 2 together (41_trap_controls.md section 5). -/
def Obligations.PmzrUnderBits21And2 : Prop :=
  ∀ s : State, s.cfg.featFGT2 = true → s.cfg.featPMUv3p9 = true → s.cfg.featPMUv3ICNTR = true →
    s.inputs.higherPriority = none → s.inputs.el2Enabled = true → ¬ E2hTgeBothSet s →
    (s.inputs.el = .el1 ∨ s.inputs.el = .el0) →
    (ActsAsZero s 21 → fgt2WriteCheck s .pmzrEl0 = .raises (.systemAccessTrap .el2 0x18#6)) ∧
    (¬ ActsAsZero s 21 → ActsAsZero s 2 → fgt2WriteCheck s .pmzrEl0 = .notTrappedHere true) ∧
    (¬ ActsAsZero s 21 → ¬ ActsAsZero s 2 → fgt2WriteCheck s .pmzrEl0 = .notTrappedHere false)

/-- The trap function reads the configuration, the register and the inputs, and nothing else: no general register, no
memory, no earlier call (41_trap_controls.md section 5); and of the register no reserved bit. -/
def Obligations.TrapFunctionReadsOnlyItsInputs : Prop :=
  (∀ (s s' : State) (r : NamedReg), s'.cfg = s.cfg → s'.hdfgwtr2 = s.hdfgwtr2 → s'.inputs = s.inputs →
    fgt2WriteCheck s' r = fgt2WriteCheck s r) ∧
  (∀ (s : State) (v : Word64) (r : NamedReg), v &&& fieldMask s.cfg = s.hdfgwtr2 &&& fieldMask s.cfg →
    fgt2WriteCheck { s with hdfgwtr2 := v } r = fgt2WriteCheck s r)

/-- A write at EL2 or EL3 is never trapped by this register, and a write of a register of no field never at any level
(41_trap_controls.md section 1); and on a register that it says nothing of, neither governed nor one of the seven with an
`F0` field, it has no effect at all (41_trap_controls.md section 5): no exception and no flag, in every state. -/
def Obligations.NoTrapAboveEl1 : Prop :=
  (∀ (s : State) (r : NamedReg) (target : EL) (ec : BitVec 6),
    (s.inputs.el = .el2 ∨ s.inputs.el = .el3 ∨ governingField r = none) →
    fgt2WriteCheck s r ≠ .raises (.systemAccessTrap target ec)) ∧
  (∀ (s : State) (label : Nat), fgt2WriteCheck s (.other label) = .notTrappedHere false)

/-- An access identified by name never completes in this model: a write raises what the trap function raises or is
refused by name, in Debug state always, and a read is refused, because what the access then does is in no source
(41_trap_controls.md section 1; the spec's decision D31 for Debug state). -/
def Obligations.NamedAccessesStopByName : Prop :=
  ∀ (a : NamedAccess) (s : State),
    (∀ s', execNamed a s ≠ .next s') ∧
    (a.dir = .read → execNamed a s = .refused .namedReadNotGoverned) ∧
    (a.dir = .write → s.inputs.halted = true → execNamed a s = .refused .namedWriteInDebugState) ∧
    (a.dir = .write → s.inputs.halted = false →
      (∀ f, execNamed a s = .fault f ↔ fgt2WriteCheck s a.reg = .raises f) ∧
      (∀ b, execNamed a s = .refused (.notTrappedHere b) ↔ fgt2WriteCheck s a.reg = .notTrappedHere b))

/-! ### The register, reset and the machine -/

/-- Rule R22: the reserved positions of an implementation, the set `RES0_MASK`, are bits 63:23, 18:17 and 6 in every one,
and beside them each named bit whose field does not exist. -/
def Obligations.ReservedPositions : Prop :=
  ∀ (c : Config) (b : Nat), b < 64 →
    ((res0Mask c).getLsbD b = true ↔
      (23 ≤ b ∨ b = 18 ∨ b = 17 ∨ b = 6) ∨ ∃ f : Field, f.bit = b ∧ f.existsIn c = false) ∧
    (∀ f : Field, f.bit = b → ¬ (23 ≤ b ∨ b = 18 ∨ b = 17 ∨ b = 6)) ∧ res0Mask c = ~~~ fieldMask c

/-- `FIELD_MASK` is the OR of the contributions 10_state.md section 5 lists. -/
def Obligations.FieldMaskOfContributions : Prop :=
  ∀ c : Config, fieldMask c =
    (if c.featTRBEMPAM then 0x400000#64 else 0) ||| (if c.featPMUv3p9 then 0x200010#64 else 0) |||
    (if c.featITE then 0x100000#64 else 0) ||| (if c.featSPEFDS then 0x80000#64 else 0) |||
    (if c.featSPMU then 0x1FF00#64 else 0) ||| (if c.featPMUv3SS then 0x80#64 else 0) |||
    (if c.featDebugv8p9 && c.nmdselrFieldImplemented then 0x20#64 else 0) |||
    (if c.featPMUv3ICNTR then 0xC#64 else 0) ||| (if c.featSEBEP then 0x2#64 else 0) |||
    (if c.featEBEP || c.featPMUv3SS then 0x1#64 else 0)

/-- Bit 5 (10_state.md section 4) is a field in every implementation with `FEAT_Debugv8p9` but one that is within the
three bounds and chooses otherwise; and the parameter is forced true wherever one of the four conjuncts of 00_scope.md
section 4 fails. -/
def Obligations.MdselrFieldChoice : Prop :=
  ∀ c : Config,
    (Field.nMDSELR_EL1.existsIn c = false ↔
      c.featDebugv8p9 = false ∨
      (c.numBreakpoints ≤ 16 ∧ c.numWatchpoints ≤ 16 ∧ c.mdselrEl1IsRazwi = true ∧ c.nmdselrChoice = false)) ∧
    (c.nmdselrFieldImplemented = false ↔
      c.featDebugv8p9 = true ∧ c.numBreakpoints ≤ 16 ∧ c.numWatchpoints ≤ 16 ∧ c.mdselrEl1IsRazwi = true ∧
        c.nmdselrChoice = false)

/-- The Warm reset bit by bit (70_reset_and_hazards.md section 1): a field becomes 0 without EL3 and the drawn bit with
it, a storage reserved bit the drawn bit, any other bit 0. Storage reserved bits are the spec's decision D1, the draw its
decision D2; it is free, an opaque constant. The last clause is the model's: everything else comes out as it stands in the
argument, because the spec lets it have any value (its decision D3, log entry 17), and the count of draws advances (log
entry 16). -/
def Obligations.WarmResetBitByBit : Prop :=
  ∀ (s : State) (b : Nat), b < 64 →
    s.warmReset.hdfgwtr2.getLsbD b =
      (if (fieldMask s.cfg).getLsbD b then s.cfg.haveEl3 && (Config.unknownBits s.draws).getLsbD b
       else s.cfg.res0StorageMask.getLsbD b && (Config.unknownBits s.draws).getLsbD b) ∧
    s.warmReset = { s with hdfgwtr2 := s.warmReset.hdfgwtr2, draws := s.draws + 1 }

/-- After a Warm reset without EL3 and with hardwired reserved bits the register is exactly 0, and every write of a
governed register at EL1 is trapped, where nothing else prevents it (70_reset_and_hazards.md section 1). The inputs of
that write are those of the argument (the spec's decision D3, log entry 17), and the class for bit 3 is its decision D18
(log entry 13). -/
def Obligations.WarmResetEnablesEveryTrap : Prop :=
  ∀ s : State, s.cfg.haveEl3 = false → s.cfg.res0StorageMask = 0 →
    s.warmReset.hdfgwtr2 = 0 ∧
    ∀ (r : NamedReg) (f : Field), s.cfg.featFGT2 = true → governingField r = some f → f.existsIn s.cfg = true →
      counterMissing s r = false → s.inputs.higherPriority = none → s.inputs.el = .el1 →
      s.inputs.el2Enabled = true → ¬ E2hTgeBothSet s →
      fgt2WriteCheck s.warmReset r = .raises (.systemAccessTrap .el2 0x18#6)

/-- The syndrome of a trapped accessor, as the spec gives it for orientation (60_exceptions.md section 2): PRESUMED (log
entry 12), and used by no step. -/
def Obligations.SyndromeOfATrappedAccessor : Prop :=
  ∀ t : RegNum,
    accessorIss (.mrs t) = 0x330C02#25 ||| (t.setWidth 25 <<< 5) ||| 1#25 ∧
    accessorIss (.msr t) = 0x330C02#25 ||| (t.setWidth 25 <<< 5) ∧
    esrValue trapEc (accessorIss (.mrs t)) = 0x62000000#32 ||| (accessorIss (.mrs t)).setWidth 32

/-- The invariant holds right after reset. Of `State.reset` the spec gives only the register; its pc 0, empty memory, empty
program and configuration are the model's choices (log entries 3, 6, 7 and 10). -/
def Obligations.InvariantAtReset : Prop :=
  Inv State.reset

/-- A Warm reset keeps the invariant, whatever it draws: it leaves hardwired reserved bits 0 (70_reset_and_hazards.md
section 1), and memory, pc and program as they stand in its argument, which is the model's way to leave them unconstrained
(the spec's decision D3, log entry 17). -/
def Obligations.WarmResetKeepsTheInvariant : Prop :=
  ∀ s : State, Inv s → Inv s.warmReset

/-- Every step keeps the invariant: canonical memory, hardwired reserved bits at 0, an aligned pc, a program in its
form. -/
def Obligations.EveryStepKeepsTheInvariant : Prop :=
  ∀ s s' : State, Inv s → step s = .next s' → Inv s'

/-- Along any run the configuration, the program and the count of draws stay as they are, and the pc moves by 4 a step:
nothing transfers control but the exceptional outcomes (10_state.md section 3, 60_exceptions.md section 11; the pc clause is
the spec's decision D5, the program's its decision D13). -/
def Obligations.RunsKeepConfigurationAndProgram : Prop :=
  (∀ s s' : State, step s = .next s' → s'.pc = s.pc + 4) ∧
  (∀ s t : State, Reaches s t → t.cfg = s.cfg ∧ t.program = s.program ∧ t.draws = s.draws ∧
    ∃ n : Nat, t.pc = s.pc + 4 * BitVec.ofNat 64 n)
end

