-- ==== Sys2Proof/Laws/Memory.lean ====
section
/-! SUPPORT. Memory: a byte written reads back, every other byte reads as before, and the canonical form is kept. -/

namespace Sys2Proof.Machine

theorem readByte_insertByte_same (m : List Host.Cell) (a : Nat) (v : Byte)
    (h : ∀ c ∈ m, c.1 ≠ a) : readByte (insertByte a v m) a = v := by
  induction m with
  | nil => simp [insertByte, readByte]
  | cons c m ih =>
    obtain ⟨k, w⟩ := c
    have hk : k ≠ a := h (k, w) (by simp)
    by_cases hlt : a < k
    · simp [insertByte, hlt, readByte]
    · simp [insertByte, hlt, readByte, hk, ih (fun c hc => h c (by simp [hc]))]

theorem readByte_insertByte_other (m : List Host.Cell) (a : Nat) (v : Byte) {b : Nat} (h : b ≠ a) :
    readByte (insertByte a v m) b = readByte m b := by
  induction m with
  | nil => simp [insertByte, readByte, Ne.symm h]
  | cons c m ih =>
    obtain ⟨k, w⟩ := c
    by_cases hlt : a < k
    · simp [insertByte, hlt, readByte, Ne.symm h]
    · by_cases hk : k = b
      · simp [insertByte, if_neg hlt, readByte, if_pos hk]
      · simp [insertByte, if_neg hlt, readByte, if_neg hk, ih]

theorem readByte_filter_same (m : List Host.Cell) (a : Nat) :
    readByte (m.filter (fun c => decide (c.1 ≠ a))) a = unlistedByte := by
  induction m with
  | nil => rfl
  | cons c m ih =>
    obtain ⟨k, w⟩ := c
    by_cases hk : k = a
    · simpa [List.filter_cons, hk] using ih
    · simpa [List.filter_cons, hk, readByte] using ih

theorem readByte_filter_other (m : List Host.Cell) {a b : Nat} (h : b ≠ a) :
    readByte (m.filter (fun c => decide (c.1 ≠ a))) b = readByte m b := by
  induction m with
  | nil => rfl
  | cons c m ih =>
    obtain ⟨k, w⟩ := c
    by_cases hk : k = a
    · have hkb : k ≠ b := fun h' => h (h'.symm.trans hk)
      simpa [List.filter_cons, hk, readByte, hk ▸ hkb] using ih
    · by_cases hkb : k = b
      · subst hkb
        simp [hk, readByte]
      · simpa [List.filter_cons, hk, readByte, hkb] using ih

/-- A written byte reads back, whatever memory held. -/
theorem readByte_writeByte_same (m : List Host.Cell) (a : Nat) (v : Byte) : readByte (writeByte m a v) a = v := by
  unfold writeByte
  by_cases hv : v = unlistedByte
  · simpa [hv] using readByte_filter_same m a
  · simp only [if_neg hv]
    exact readByte_insertByte_same _ a v (by simp)

/-- Every other byte reads as before. -/
theorem readByte_writeByte_other (m : List Host.Cell) {a b : Nat} (v : Byte) (h : b ≠ a) :
    readByte (writeByte m a v) b = readByte m b := by
  unfold writeByte
  by_cases hv : v = unlistedByte
  · simpa [hv] using readByte_filter_other m h
  · simp only [if_neg hv]
    rw [readByte_insertByte_other _ a v h]
    exact readByte_filter_other m h

theorem mem_insertByte {m : List Host.Cell} {a : Nat} {v : Byte} {c : Host.Cell} :
    c ∈ insertByte a v m ↔ c = (a, v) ∨ c ∈ m := by
  induction m with
  | nil => simp [insertByte]
  | cons d m ih =>
    obtain ⟨k, w⟩ := d
    by_cases hlt : a < k
    · simp [insertByte, hlt]
    · simp only [insertByte, hlt, if_false, List.mem_cons, ih]
      tauto

theorem insertByte_sorted {m : List Host.Cell} {a : Nat} (v : Byte)
    (hm : m.Pairwise (fun a b => a.1 < b.1)) (ha : ∀ c ∈ m, c.1 ≠ a) :
    (insertByte a v m).Pairwise (fun a b => a.1 < b.1) := by
  induction m with
  | nil => simp [insertByte]
  | cons d m ih =>
    obtain ⟨k, w⟩ := d
    rw [List.pairwise_cons] at hm
    by_cases hlt : a < k
    · simp only [insertByte, hlt, if_true, List.pairwise_cons, List.mem_cons]
      refine ⟨?_, hm⟩
      rintro c (rfl | hc)
      · exact hlt
      · exact lt_trans hlt (hm.1 c hc)
    · have hk : k ≠ a := ha (k, w) (by simp)
      simp only [insertByte, hlt, if_false, List.pairwise_cons]
      refine ⟨fun c hc => ?_, ih hm.2 (fun c hc => ha c (by simp [hc]))⟩
      rcases mem_insertByte.1 hc with rfl | hc
      · show k < a
        omega
      · exact hm.1 c hc

/-- Writing a byte of the address space keeps the canonical form. -/
theorem writeByte_wf {m : List Host.Cell} {a : Nat} (v : Byte) (hm : Memory.wf m) (ha : a < 2 ^ 64) :
    Memory.wf (writeByte m a v) := by
  have hf : (m.filter (fun c => decide (c.1 ≠ a))).Pairwise (fun a b => a.1 < b.1) := hm.1.filter _
  unfold writeByte
  by_cases hv : v = unlistedByte
  · simp only [if_pos hv]
    exact ⟨hf, fun c hc => hm.2 c (List.mem_of_mem_filter hc)⟩
  · simp only [if_neg hv]
    refine ⟨insertByte_sorted v hf (by simp), fun c hc => ?_⟩
    rcases mem_insertByte.1 hc with rfl | hc
    · exact ⟨ha, hv⟩
    · exact hm.2 c (List.mem_of_mem_filter hc)

theorem lane_lt (be : Bool) {k : Nat} (h : k < 8) : lane be k < 8 := by
  cases be <;> simp [lane] <;> omega

theorem lane_lane (be : Bool) {k : Nat} (h : k < 8) : lane be (lane be k) = k := by
  cases be <;> simp [lane]
  omega

/-- The writes of the first `n` of the bytes of an access, read at any address. -/
theorem readByte_foldl_writes (be : Bool) (m : List Host.Cell) (a : Nat) (v : Word64) (n b : Nat) :
    readByte ((List.range n).foldl (fun m k => writeByte m (a + k) (byteOf v (lane be k))) m) b =
      if a ≤ b ∧ b < a + n then byteOf v (lane be (b - a)) else readByte m b := by
  induction n with
  | zero =>
    simp
  | succ n ih =>
    rw [List.range_succ, List.foldl_append, List.foldl_cons, List.foldl_nil]
    by_cases hb : b = a + n
    · subst hb
      rw [readByte_writeByte_same]
      simp
    · rw [readByte_writeByte_other _ _ hb, ih]
      by_cases h : a ≤ b ∧ b < a + n
      · have h' : a ≤ b ∧ b < a + (n + 1) := by omega
        rw [if_pos h, if_pos h']
      · have h' : ¬ (a ≤ b ∧ b < a + (n + 1)) := by omega
        rw [if_neg h, if_neg h']

/-- Everything an 8-byte write does to reads: its bytes are the value's in the order asked for, and no other byte
changes. -/
theorem readByte_memWrite8 (be : Bool) (m : List Host.Cell) (a : Nat) (v : Word64) (b : Nat) :
    readByte (memWrite8 be m a v) b =
      if a ≤ b ∧ b < a + 8 then byteOf v (lane be (b - a)) else readByte m b :=
  readByte_foldl_writes be m a v 8 b

/-- An 8-byte write inside the address space keeps the canonical form. -/
theorem memWrite8_wf (be : Bool) {m : List Host.Cell} {a : Nat} (v : Word64) (hm : Memory.wf m) (ha : a + 8 ≤ 2 ^ 64) :
    Memory.wf (memWrite8 be m a v) := by
  have key : ∀ n, n ≤ 8 →
      Memory.wf ((List.range n).foldl (fun m k => writeByte m (a + k) (byteOf v (lane be k))) m) := by
    intro n
    induction n with
    | zero => intro _; simpa using hm
    | succ n ih =>
      intro hn
      rw [List.range_succ, List.foldl_append, List.foldl_cons, List.foldl_nil]
      exact writeByte_wf _ (ih (by omega)) (by omega)
  exact key 8 (le_refl 8)

/-- Byte `k` of an 8-byte read. -/
theorem byteOf_memRead8 (be : Bool) (m : List Host.Cell) (a : Nat) {k : Nat} (hk : k < 8) :
    byteOf (memRead8 be m a) k = readByte m (a + lane be k) := by
  apply BitVec.eq_of_getLsbD_eq
  intro i hi
  simp only [byteOf, memRead8, BitVec.getLsbD_extractLsb', BitVec.getLsbD_append]
  interval_cases k <;> interval_cases i <;> simp

/-- Two 64-bit values with equal bytes are equal. -/
theorem eq_of_byteOf_eq {v w : Word64} (h : ∀ k, k < 8 → byteOf v k = byteOf w k) : v = w := by
  apply BitVec.eq_of_getLsbD_eq
  intro i hi
  have hb := congrArg (fun b => b.getLsbD (i % 8)) (h (i / 8) (by omega))
  have h8 : i % 8 < 8 := Nat.mod_lt _ (by decide)
  have hi' : 8 * (i / 8) + i % 8 = i := Nat.div_add_mod i 8
  simpa [byteOf, h8, hi'] using hb

/-- A read after a write of the same place, in the same byte order, gives the value written (rules R73, R78). -/
theorem memRead8_memWrite8 (be : Bool) (m : List Host.Cell) (a : Nat) (v : Word64) :
    memRead8 be (memWrite8 be m a v) a = v := by
  apply eq_of_byteOf_eq
  intro k hk
  have hl := lane_lt be hk
  rw [byteOf_memRead8 be _ a hk, readByte_memWrite8, if_pos ⟨by omega, by omega⟩]
  rw [show a + lane be k - a = lane be k by omega, lane_lane be hk]

end Sys2Proof.Machine
end

