-- ==== Sys2Proof/Laws/State.lean ====
section
/-! SUPPORT. One lemma per field per named update of the state. -/

namespace Sys2Proof.Machine

variable (s : State) (t : RegNum) (v : Word64) (i : Inputs)

@[simp] theorem State.writeX_cfg : (s.writeX t v).cfg = s.cfg := rfl
@[simp] theorem State.writeX_hdfgwtr2 : (s.writeX t v).hdfgwtr2 = s.hdfgwtr2 := rfl
@[simp] theorem State.writeX_x : (s.writeX t v).x = regWrite s.x t v := rfl
@[simp] theorem State.writeX_pc : (s.writeX t v).pc = s.pc := rfl
@[simp] theorem State.writeX_mem : (s.writeX t v).mem = s.mem := rfl
@[simp] theorem State.writeX_inputs : (s.writeX t v).inputs = s.inputs := rfl
@[simp] theorem State.writeX_schedule : (s.writeX t v).schedule = s.schedule := rfl
@[simp] theorem State.writeX_program : (s.writeX t v).program = s.program := rfl
@[simp] theorem State.writeX_draws : (s.writeX t v).draws = s.draws := rfl

@[simp] theorem State.writeRegister_cfg : (s.writeRegister v).cfg = s.cfg := rfl
@[simp] theorem State.writeRegister_hdfgwtr2 : (s.writeRegister v).hdfgwtr2 = writeValue s.cfg v := rfl
@[simp] theorem State.writeRegister_x : (s.writeRegister v).x = s.x := rfl
@[simp] theorem State.writeRegister_pc : (s.writeRegister v).pc = s.pc := rfl
@[simp] theorem State.writeRegister_mem : (s.writeRegister v).mem = s.mem := rfl
@[simp] theorem State.writeRegister_inputs : (s.writeRegister v).inputs = s.inputs := rfl
@[simp] theorem State.writeRegister_schedule : (s.writeRegister v).schedule = s.schedule := rfl
@[simp] theorem State.writeRegister_program : (s.writeRegister v).program = s.program := rfl
@[simp] theorem State.writeRegister_draws : (s.writeRegister v).draws = s.draws := rfl

@[simp] theorem State.nvMemWrite_cfg : (s.nvMemWrite v).cfg = s.cfg := rfl
@[simp] theorem State.nvMemWrite_hdfgwtr2 : (s.nvMemWrite v).hdfgwtr2 = s.hdfgwtr2 := rfl
@[simp] theorem State.nvMemWrite_x : (s.nvMemWrite v).x = s.x := rfl
@[simp] theorem State.nvMemWrite_pc : (s.nvMemWrite v).pc = s.pc := rfl
@[simp] theorem State.nvMemWrite_mem :
    (s.nvMemWrite v).mem = memWrite8 s.cfg.nvmemBigEndian s.mem s.nvAddr v := rfl
@[simp] theorem State.nvMemWrite_inputs : (s.nvMemWrite v).inputs = s.inputs := rfl
@[simp] theorem State.nvMemWrite_schedule : (s.nvMemWrite v).schedule = s.schedule := rfl
@[simp] theorem State.nvMemWrite_program : (s.nvMemWrite v).program = s.program := rfl
@[simp] theorem State.nvMemWrite_draws : (s.nvMemWrite v).draws = s.draws := rfl

@[simp] theorem State.advancePc_cfg : s.advancePc.cfg = s.cfg := rfl
@[simp] theorem State.advancePc_hdfgwtr2 : s.advancePc.hdfgwtr2 = s.hdfgwtr2 := rfl
@[simp] theorem State.advancePc_x : s.advancePc.x = s.x := rfl
@[simp] theorem State.advancePc_pc : s.advancePc.pc = s.pc + 4 := rfl
@[simp] theorem State.advancePc_mem : s.advancePc.mem = s.mem := rfl
@[simp] theorem State.advancePc_inputs : s.advancePc.inputs = s.inputs := rfl
@[simp] theorem State.advancePc_schedule : s.advancePc.schedule = s.schedule := rfl
@[simp] theorem State.advancePc_program : s.advancePc.program = s.program := rfl
@[simp] theorem State.advancePc_draws : s.advancePc.draws = s.draws := rfl

@[simp] theorem State.warmReset_cfg : s.warmReset.cfg = s.cfg := rfl
@[simp] theorem State.warmReset_hdfgwtr2 :
    s.warmReset.hdfgwtr2 = warmResetValue s.cfg (Config.unknownBits s.draws) := rfl
@[simp] theorem State.warmReset_x : s.warmReset.x = s.x := rfl
@[simp] theorem State.warmReset_pc : s.warmReset.pc = s.pc := rfl
@[simp] theorem State.warmReset_mem : s.warmReset.mem = s.mem := rfl
@[simp] theorem State.warmReset_inputs : s.warmReset.inputs = s.inputs := rfl
@[simp] theorem State.warmReset_schedule : s.warmReset.schedule = s.schedule := rfl
@[simp] theorem State.warmReset_program : s.warmReset.program = s.program := rfl
@[simp] theorem State.warmReset_draws : s.warmReset.draws = s.draws + 1 := rfl

@[simp] theorem State.withInputs_cfg : (s.withInputs i).cfg = s.cfg := rfl
@[simp] theorem State.withInputs_hdfgwtr2 : (s.withInputs i).hdfgwtr2 = s.hdfgwtr2 := rfl
@[simp] theorem State.withInputs_x : (s.withInputs i).x = s.x := rfl
@[simp] theorem State.withInputs_pc : (s.withInputs i).pc = s.pc := rfl
@[simp] theorem State.withInputs_mem : (s.withInputs i).mem = s.mem := rfl
@[simp] theorem State.withInputs_inputs : (s.withInputs i).inputs = i := rfl
@[simp] theorem State.withInputs_schedule : (s.withInputs i).schedule = s.schedule := rfl
@[simp] theorem State.withInputs_program : (s.withInputs i).program = s.program := rfl
@[simp] theorem State.withInputs_draws : (s.withInputs i).draws = s.draws := rfl

/-! Taking the scheduled inputs touches the inputs and the schedule alone. -/

@[simp] theorem State.takeInputs_cfg : s.takeInputs.cfg = s.cfg := by
  unfold State.takeInputs; split <;> rfl
@[simp] theorem State.takeInputs_hdfgwtr2 : s.takeInputs.hdfgwtr2 = s.hdfgwtr2 := by
  unfold State.takeInputs; split <;> rfl
@[simp] theorem State.takeInputs_x : s.takeInputs.x = s.x := by
  unfold State.takeInputs; split <;> rfl
@[simp] theorem State.takeInputs_pc : s.takeInputs.pc = s.pc := by
  unfold State.takeInputs; split <;> rfl
@[simp] theorem State.takeInputs_mem : s.takeInputs.mem = s.mem := by
  unfold State.takeInputs; split <;> rfl
@[simp] theorem State.takeInputs_program : s.takeInputs.program = s.program := by
  unfold State.takeInputs; split <;> rfl
@[simp] theorem State.takeInputs_draws : s.takeInputs.draws = s.draws := by
  unfold State.takeInputs; split <;> rfl

end Sys2Proof.Machine
end

