-- ==== Sys2Proof/Laws/Registers.lean ====
section
/-! SUPPORT. The general registers, and the masks of HDFGWTR2_EL2 bit by bit. -/

namespace Sys2Proof.Machine

/-- The zero register reads as zero (rule R57). -/
@[simp] theorem regRead_zero_register (x : Vector Word64 31) : regRead x 31#5 = 0#64 := by
  simp [regRead]

/-- The zero register discards what is written to it (rule R57). -/
@[simp] theorem regWrite_zero_register (x : Vector Word64 31) (v : Word64) : regWrite x 31#5 v = x := by
  simp [regWrite]

theorem RegNum.toNat_lt_of_ne_zero_register {t : RegNum} (h : t ≠ 31#5) : t.toNat < 31 := by
  have h32 : t.toNat < 32 := t.isLt
  have hne : t.toNat ≠ 31 := fun h' => h (BitVec.eq_of_toNat_eq (by simpa using h'))
  omega

/-- A written register reads back, unless it is the zero register. -/
theorem regRead_regWrite_same (x : Vector Word64 31) {t : RegNum} (v : Word64) (h : t ≠ 31#5) :
    regRead (regWrite x t v) t = v := by
  simp [regRead, regWrite, RegNum.toNat_lt_of_ne_zero_register h]

/-- Every other register reads as before. -/
theorem regRead_regWrite_other (x : Vector Word64 31) {t u : RegNum} (v : Word64) (h : u ≠ t) :
    regRead (regWrite x t v) u = regRead x u := by
  have hne : t.toNat ≠ u.toNat := fun h' => h (BitVec.eq_of_toNat_eq h'.symm)
  by_cases hu : u.toNat < 31 <;> by_cases ht : t.toNat < 31 <;>
    simp [regRead, regWrite, hu, ht, hne]

/-- A bit of `FIELD_MASK` is set exactly where a field of the implementation stands (rule R47). -/
theorem fieldMask_getLsbD (c : Config) (b : Nat) :
    (fieldMask c).getLsbD b = true ↔ ∃ f : Field, f.existsIn c = true ∧ f.bit = b := by
  have key : ∀ (l : List Field) (m : Word64),
      (l.foldl (fun m f => if f.existsIn c then m ||| f.mask else m) m).getLsbD b = true ↔
        m.getLsbD b = true ∨ ∃ f ∈ l, f.existsIn c = true ∧ f.bit = b := by
    intro l
    induction l with
    | nil => simp
    | cons f l ih =>
      intro m
      have hlt : f.bit < 64 := by cases f <;> decide
      have hbit : f.mask.getLsbD b = true ↔ f.bit = b := by
        simp only [Field.mask, BitVec.getLsbD_shiftLeft, BitVec.getLsbD_one]
        simp
        omega
      rw [List.foldl_cons, ih]
      by_cases hf : f.existsIn c = true <;> simp [hf, hbit, or_assoc]
  have hall : ∀ f : Field, f ∈ allFields := by intro f; cases f <;> decide
  rw [fieldMask, key]
  simp [hall]

/-- Every field's bit is within the register. -/
theorem Field.bit_lt (f : Field) : f.bit < 64 := by
  cases f <;> decide

/-- No two fields share a bit (rule R21). -/
theorem Field.bit_injective {f g : Field} (h : f.bit = g.bit) : f = g := by
  cases f <;> cases g <;> first | rfl | (revert h; decide)

/-- A write stores the bits that hold a value and no other (rule R113). -/
theorem writeValue_eq (c : Config) (v : Word64) : writeValue c v = v &&& storedMask c := by
  simp only [writeValue, storedMask]
  ext b
  simp [Bool.and_or_distrib_left]

/-- Masking away what a mask has kept leaves nothing. -/
theorem and_and_not_self (v m : Word64) : v &&& m &&& ~~~ m = 0#64 := by
  simp [BitVec.and_assoc, BitVec.and_not_self]

/-- What a write stores keeps the hardwired reserved bits at 0 (rule R23). -/
theorem writeValue_reserved (c : Config) (v : Word64) : writeValue c v &&& ~~~ storedMask c = 0#64 := by
  rw [writeValue_eq, and_and_not_self]

/-- The Warm reset value as one formula: the case of no storage bit is no exception. -/
theorem warmResetValue_eq (c : Config) (draw : Word64) :
    warmResetValue c draw =
      (if c.haveEl3 then draw &&& fieldMask c else 0#64) ||| (draw &&& (c.res0StorageMask &&& res0Mask c)) := by
  by_cases hs : c.res0StorageMask = 0#64 <;> simp [warmResetValue, hs]

/-- The Warm reset value bit by bit (rule R200). -/
theorem warmResetValue_getLsbD (c : Config) (draw : Word64) {b : Nat} (hb : b < 64) :
    (warmResetValue c draw).getLsbD b =
      (if (fieldMask c).getLsbD b then c.haveEl3 && draw.getLsbD b
       else c.res0StorageMask.getLsbD b && draw.getLsbD b) := by
  rw [warmResetValue_eq, BitVec.getLsbD_or, BitVec.getLsbD_and, BitVec.getLsbD_and, res0Mask, BitVec.getLsbD_not]
  cases hf : (fieldMask c).getLsbD b <;> cases h3 : c.haveEl3 <;> cases hs : c.res0StorageMask.getLsbD b <;>
    cases hd : draw.getLsbD b <;> simp_all

/-- A Warm reset leaves the hardwired reserved bits 0 (rule R49). -/
theorem warmResetValue_reserved (c : Config) (draw : Word64) : warmResetValue c draw &&& ~~~ storedMask c = 0#64 := by
  apply BitVec.eq_of_getLsbD_eq
  intro b hb
  rw [BitVec.getLsbD_and, warmResetValue_getLsbD c draw hb, BitVec.getLsbD_not, storedMask, BitVec.getLsbD_or]
  cases (fieldMask c).getLsbD b <;> cases c.res0StorageMask.getLsbD b <;> simp

end Sys2Proof.Machine
end

