-- ==== Sys2Proof/Laws/Access.lean ====
section
/-! SUPPORT. The shared operations of the accessors: what each can do, said once. -/

namespace Sys2Proof.Machine

/-- A completed outcome is the given state with the pc moved on. -/
theorem complete_next {s s' : State} (h : complete s = .next s') : s' = s.advancePc := by
  cases h
  rfl

/-- Raising never gives a next state. -/
theorem raise_ne_next (f : Fault) (s' : State) : raise f ≠ .next s' := by
  intro h
  cases h

/-- An `NVMem` access that answers a next state had an aligned base and no fault, and the state is the one given. -/
theorem nvMemAccess_next {s done s' : State} (h : nvMemAccess s done = .next s') :
    nvBaseAligned s.inputs.nvBase = true ∧ s.inputs.nvMemFault = none ∧ s' = done.advancePc := by
  unfold nvMemAccess at h
  split at h
  · rename_i ha
    split at h
    · cases h
    · rename_i hf
      exact ⟨ha, hf, complete_next h⟩
  · cases h

/-- An aligned `NVMem` access without a fault completes. -/
theorem nvMemAccess_completes {s : State} (done : State) (ha : nvBaseAligned s.inputs.nvBase = true)
    (hf : s.inputs.nvMemFault = none) : nvMemAccess s done = .next done.advancePc := by
  simp [nvMemAccess, ha, hf, complete]

/-- An `NVMem` access from an aligned base is not refused. -/
theorem nvMemAccess_not_refused {s done : State} {r : Refusal} (ha : nvBaseAligned s.inputs.nvBase = true) :
    nvMemAccess s done ≠ .refused r := by
  unfold nvMemAccess
  rw [if_pos ha]
  split <;> intro h <;> cases h

/-- An aligned base has its low twelve bits 0. -/
theorem nvBaseAligned_iff (b : Word64) : nvBaseAligned b = true ↔ b.toNat % 4096 = 0 := by
  simp only [nvBaseAligned, beq_iff_eq]
  constructor
  · intro h
    have := congrArg BitVec.toNat h
    simpa [BitVec.extractLsb'_toNat] using this
  · intro h
    apply BitVec.eq_of_toNat_eq
    simpa [BitVec.extractLsb'_toNat] using h

/-- The address of the memory copy is the base plus 0x1B0, without a carry out of the address space. -/
theorem nvAddr_of_aligned {s : State} (h : nvBaseAligned s.inputs.nvBase = true) :
    s.nvAddr = s.inputs.nvBase.toNat + 0x1B0 := by
  have hm := (nvBaseAligned_iff _).1 h
  have hlt := s.inputs.nvBase.isLt
  simp only [State.nvAddr, nvOffset, BitVec.toNat_add, BitVec.toNat_ofNat]
  omega

/-- The whole memory copy lies inside the address space. -/
theorem nvAddr_fits {s : State} (h : nvBaseAligned s.inputs.nvBase = true) : s.nvAddr + 8 ≤ 2 ^ 64 := by
  have hm := (nvBaseAligned_iff _).1 h
  have hlt := s.inputs.nvBase.isLt
  rw [nvAddr_of_aligned h]
  omega

/-! The decision the accessors share, by the rows of the outcome table. -/

theorem accessRoute_register {s : State} (hp : s.cfg.featFGT2 = true) (h : RegisterRow s) :
    accessRoute s.cfg s.inputs = .register := by
  rcases h with h | ⟨h, h' | h'⟩ <;> simp [accessRoute, routeAtEl2, hp, h] <;> simp [h']

theorem accessRoute_memory {s : State} (hp : s.cfg.featFGT2 = true) (h : MemoryRow s) :
    accessRoute s.cfg s.inputs = .memory := by
  obtain ⟨h1, h2, h3, h4⟩ := h
  simp [accessRoute, routeAtEl1, hp, h1, h2, h3, h4]

theorem accessRoute_trapToEl2 {s : State} (hp : s.cfg.featFGT2 = true) (h : TrapToEl2Row s) :
    accessRoute s.cfg s.inputs = .raises (trapFault .el2) := by
  obtain ⟨h1, h2, h3, h4⟩ := h
  simp [accessRoute, routeAtEl1, hp, h1, h2, h3, h4]

theorem accessRoute_trapToEl3 {s : State} (hp : s.cfg.featFGT2 = true) (h : TrapToEl3Row s) :
    accessRoute s.cfg s.inputs = .raises (trapFault .el3) := by
  obtain ⟨h1, h2, h3, h4 | h4⟩ := h <;> simp [accessRoute, routeAtEl2, hp, h1, h2, h3, h4]

theorem accessRoute_undefined {s : State} (hp : s.cfg.featFGT2 = true) (h : UndefinedRow s) :
    accessRoute s.cfg s.inputs = .raises undefinedFault := by
  rcases h with h | ⟨h, h' | h'⟩ | ⟨h1, h2, h3, h4, h5⟩
  · simp [accessRoute, hp, h]
  · simp [accessRoute, routeAtEl1, hp, h, h']
  · simp [accessRoute, routeAtEl1, hp, h, h']
  · simp [accessRoute, routeAtEl2, hp, h1, h2, h3, h4, h5]

theorem accessRoute_absent {s : State} (hp : s.cfg.featFGT2 = false) :
    accessRoute s.cfg s.inputs = .raises undefinedFault := by
  simp [accessRoute, hp]

/-- The rows read backwards: the register is reached in the register rows only. -/
theorem accessRoute_register_inv {s : State} (h : accessRoute s.cfg s.inputs = .register) :
    s.cfg.featFGT2 = true ∧ RegisterRow s := by
  cases hp : s.cfg.featFGT2 with
  | false => simp [accessRoute, hp] at h
  | true =>
    refine ⟨rfl, ?_⟩
    cases he : s.inputs.el with
    | el0 => simp [accessRoute, hp, he] at h
    | el1 =>
      simp only [accessRoute, hp, he, routeAtEl1, if_true] at h
      split at h <;> first | contradiction | (split at h <;> contradiction)
    | el2 =>
      refine .inr ⟨he, ?_⟩
      cases h3 : s.cfg.haveEl3 with
      | false => exact .inl rfl
      | true =>
        refine .inr ?_
        cases hg : s.inputs.scrFGTEn2 with
        | true => rfl
        | false =>
          simp only [accessRoute, hp, he, routeAtEl2, h3, hg, if_true, Bool.not_false, Bool.and_true] at h
          split at h
          · cases h
          · split at h <;> cases h
    | el3 => exact .inl he

/-- Memory is reached in the memory row only. -/
theorem accessRoute_memory_inv {s : State} (h : accessRoute s.cfg s.inputs = .memory) :
    s.cfg.featFGT2 = true ∧ MemoryRow s := by
  cases hp : s.cfg.featFGT2 with
  | false => simp [accessRoute, hp] at h
  | true =>
    refine ⟨rfl, ?_⟩
    cases he : s.inputs.el with
    | el0 => simp [accessRoute, hp, he] at h
    | el1 =>
      refine ⟨he, ?_⟩
      cases h1 : s.inputs.el2Enabled <;> cases h2 : s.inputs.hcrNV <;> cases h3 : s.inputs.hcrNV2 <;>
        simp_all [accessRoute, routeAtEl1]
    | el2 =>
      simp only [accessRoute, hp, he, routeAtEl2, if_true] at h
      split at h
      · cases h
      · split at h
        · split at h <;> cases h
        · cases h
    | el3 => simp [accessRoute, hp, he] at h

/-- Everything `MRS` can do where it answers a next state (rule R110). -/
theorem execMrs_next {t : RegNum} {s s' : State} (h : execMrs t s = .next s') :
    (accessRoute s.cfg s.inputs = .register ∧ s' = (s.writeX t s.readRegister).advancePc) ∨
    (accessRoute s.cfg s.inputs = .memory ∧ nvBaseAligned s.inputs.nvBase = true ∧ s.inputs.nvMemFault = none ∧
      s' = (s.writeX t s.nvMemRead).advancePc) := by
  unfold execMrs at h
  split at h
  · exact .inl ⟨‹_›, complete_next h⟩
  · exact .inr ⟨‹_›, nvMemAccess_next h⟩
  · cases h

/-- Everything `MSR` can do where it answers a next state (rule R111). -/
theorem execMsr_next {t : RegNum} {s s' : State} (h : execMsr t s = .next s') :
    (accessRoute s.cfg s.inputs = .register ∧ s' = (s.writeRegister (s.readX t)).advancePc) ∨
    (accessRoute s.cfg s.inputs = .memory ∧ nvBaseAligned s.inputs.nvBase = true ∧ s.inputs.nvMemFault = none ∧
      s' = (s.nvMemWrite (s.readX t)).advancePc) := by
  unfold execMsr at h
  split at h
  · exact .inl ⟨‹_›, complete_next h⟩
  · exact .inr ⟨‹_›, nvMemAccess_next h⟩
  · cases h

end Sys2Proof.Machine
end

