-- ==== Sys2Proof/Laws/PerInstr.lean ====
section
/-! SUPPORT. Statements about every instruction as syntax, one lemma per constructor. -/

namespace Sys2Proof

/-- The bytes of a word, put together again, are the word. -/
theorem wordOfBytes_byteOfWord (w : InstrWord) :
    wordOfBytes (byteOfWord w 0) (byteOfWord w 1) (byteOfWord w 2) (byteOfWord w 3) = w := by
  apply BitVec.eq_of_getLsbD_eq
  intro i hi
  simp only [wordOfBytes, byteOfWord, BitVec.getLsbD_append, BitVec.getLsbD_extractLsb']
  interval_cases i <;> simp

namespace Laws.EncodedWordDecodes

/-- The word the encoder writes from the field layout decodes to the instruction (rules R92, R96). -/
def Statement (i : Instr) : Prop :=
  decodeWord (encodeWord i) = .ok i

theorem mrs (t : RegNum) : Statement (.mrs t) := by
  revert t
  unfold Statement
  decide

theorem msr (t : RegNum) : Statement (.msr t) := by
  revert t
  unfold Statement
  decide

end Laws.EncodedWordDecodes

end Sys2Proof
end

