-- ==== Sys2Proof/Laws/Step.lean ====
section
/-! SUPPORT. The program and the step: what a fetch finds, and everything a step can do. -/

namespace Sys2Proof.Machine

theorem slotAt_insertSlot_same (p : List (Nat × Slot)) (a : Nat) (v : Slot) (h : ∀ c ∈ p, c.1 ≠ a) :
    slotAt (insertSlot a v p) a = some v := by
  induction p with
  | nil => simp [insertSlot, slotAt]
  | cons c p ih =>
    obtain ⟨k, w⟩ := c
    have hk : k ≠ a := h (k, w) (by simp)
    by_cases hlt : a < k
    · simp [insertSlot, hlt, slotAt]
    · simp [insertSlot, hlt, slotAt, hk, ih (fun c hc => h c (by simp [hc]))]

theorem slotAt_insertSlot_other (p : List (Nat × Slot)) (a : Nat) (v : Slot) {b : Nat} (h : b ≠ a) :
    slotAt (insertSlot a v p) b = slotAt p b := by
  induction p with
  | nil => simp [insertSlot, slotAt, Ne.symm h]
  | cons c p ih =>
    obtain ⟨k, w⟩ := c
    by_cases hlt : a < k
    · simp [insertSlot, hlt, slotAt, Ne.symm h]
    · by_cases hk : k = b
      · simp [insertSlot, if_neg hlt, slotAt, if_pos hk]
      · simp [insertSlot, if_neg hlt, slotAt, if_neg hk, ih]

theorem slotAt_filter_other (p : List (Nat × Slot)) {a b : Nat} (h : b ≠ a) :
    slotAt (p.filter (fun c => decide (c.1 ≠ a))) b = slotAt p b := by
  induction p with
  | nil => rfl
  | cons c p ih =>
    obtain ⟨k, w⟩ := c
    by_cases hk : k = a
    · have hkb : k ≠ b := fun h' => h (h'.symm.trans hk)
      simpa [List.filter_cons, hk, slotAt, hk ▸ hkb] using ih
    · by_cases hkb : k = b
      · subst hkb
        simp [hk, slotAt]
      · simpa [List.filter_cons, hk, slotAt, hkb] using ih

/-- A placed slot is found, whatever the program held. -/
theorem slotAt_setSlot_same (p : List (Nat × Slot)) (a : Nat) (v : Slot) : slotAt (setSlot p a v) a = some v :=
  slotAt_insertSlot_same _ a v (by simp)

/-- Every other slot is as before. -/
theorem slotAt_setSlot_other (p : List (Nat × Slot)) {a b : Nat} (v : Slot) (h : b ≠ a) :
    slotAt (setSlot p a v) b = slotAt p b := by
  rw [setSlot, slotAt_insertSlot_other _ a v h]
  exact slotAt_filter_other p h

/-- Everything a step can do where it answers a next state: an accessor at the pc completed, and the next scheduled
inputs came into force. -/
theorem step_next {s s' : State} (h : step s = .next s') :
    ∃ i t, fetch s = .accessor i ∧ exec i s = .next t ∧ s' = t.takeInputs := by
  unfold step at h
  split at h
  · rename_i i hi
    cases he : exec i s with
    | next t =>
      rw [he] at h
      cases h
      exact ⟨i, t, hi, he, rfl⟩
    | fault f => rw [he] at h; cases h
    | refused r => rw [he] at h; cases h
  · rename_i a ha
    unfold execNamed at h
    split at h
    · cases h
    · split at h
      · cases h
      · split at h <;> cases h
  · cases h

/-- A step where an accessor is fetched. -/
theorem step_of_accessor {s : State} {i : Instr} (h : fetch s = .accessor i) : step s = thenTakeInputs (exec i s) := by
  simp [step, h]

/-- An aligned pc stays aligned when it moves by 4 (rule R58). -/
theorem pcAligned_add_four {pc : Word64} (h : pcAligned pc = true) : pcAligned (pc + 4) = true := by
  simp only [pcAligned, beq_iff_eq] at h ⊢
  have h' : pc.toNat % 4 = 0 := by
    have := congrArg BitVec.toNat h
    simpa [BitVec.extractLsb'_toNat] using this
  apply BitVec.eq_of_toNat_eq
  simp [BitVec.extractLsb'_toNat, BitVec.toNat_add]
  omega

/-- An aligned pc is its own word's address. -/
theorem alignPc_of_aligned {pc : Word64} (h : pcAligned pc = true) : alignPc pc = pc := by
  have h' : pc.extractLsb' 0 2 = 0#2 := by simpa [pcAligned] using h
  apply BitVec.eq_of_getLsbD_eq
  intro i hi
  have h0 : pc.getLsbD 0 = false := by simpa using congrArg (fun v => v.getLsbD 0) h'
  have h1 : pc.getLsbD 1 = false := by simpa using congrArg (fun v => v.getLsbD 1) h'
  rw [alignPc, BitVec.getLsbD_and]
  rcases i with _ | _ | i
  · rw [h0, Bool.false_and]
  · rw [h1, Bool.false_and]
  · have hb : (0xFFFFFFFFFFFFFFFC#64).getLsbD (i + 2) = true := by
      have hlt : i + 2 < 64 := hi
      have : i < 62 := by omega
      clear h0 h1 h h' hi hlt
      interval_cases i <;> rfl
    rw [hb, Bool.and_true]

end Sys2Proof.Machine
end

