-- ==== Sys2Proof/Laws/Trap.lean ====
section
/-! SUPPORT. The trap function: its conditions as propositions, and what it can answer. -/

namespace Sys2Proof.Machine

/-- The effective value is 0 exactly where the bit acts as 0 (rule R131). -/
theorem eff_false_iff (s : State) (f : Field) : eff s f = false ↔ ActsAsZero s f.bit := by
  unfold eff ActsAsZero FieldsTreatedAsZero
  cases s.cfg.haveEl3 <;> cases s.inputs.scrFGTEn2 <;> simp

theorem e2hTgeNotBothSet_iff (s : State) : e2hTgeNotBothSet s.inputs = true ↔ ¬ E2hTgeBothSet s := by
  unfold e2hTgeNotBothSet E2hTgeBothSet
  cases s.inputs.hcrE2H <;> cases s.inputs.hcrTGE <;> simp

theorem atEl1OrEl0_iff (i : Inputs) : atEl1OrEl0 i = true ↔ i.el = .el1 ∨ i.el = .el0 := by
  simp [atEl1OrEl0]

/-- `TrapCond_EL1_ONLY` of rule R132. -/
theorem trapCond_el1Only {s : State} {f : Field} (h : f.trapClass = .el1Only) :
    trapCond s f = true ↔ s.inputs.el = .el1 ∧ s.inputs.el2Enabled = true ∧ ActsAsZero s f.bit := by
  rw [← eff_false_iff]
  simp [trapCond, h, and_assoc]

/-- `TrapCond_EL1_EL0` of rule R132. -/
theorem trapCond_el1AndEl0 {s : State} {f : Field} (h : f.trapClass = .el1AndEl0) :
    trapCond s f = true ↔ (s.inputs.el = .el1 ∨ s.inputs.el = .el0) ∧ s.inputs.el2Enabled = true ∧
      ¬ E2hTgeBothSet s ∧ ActsAsZero s f.bit := by
  rw [← eff_false_iff, ← e2hTgeNotBothSet_iff, ← atEl1OrEl0_iff]
  simp [trapCond, h, and_assoc]

/-- The condition of the `F0` side effects (rules R152, R153). -/
theorem f0Cond_iff (s : State) (f : Field) :
    f0Cond s f = true ↔ s.inputs.el2Enabled = true ∧ ¬ E2hTgeBothSet s ∧ ActsAsZero s f.bit ∧
      s.cfg.featFGT2 = true ∧ f.existsIn s.cfg = true := by
  rw [← eff_false_iff, ← e2hTgeNotBothSet_iff]
  simp [f0Cond, and_assoc]

/-- No trap condition holds above EL1 (rule R130). -/
theorem trapCond_above_el1 {s : State} (f : Field) (h : s.inputs.el = .el2 ∨ s.inputs.el = .el3) :
    trapCond s f = false := by
  unfold trapCond atEl1OrEl0
  rcases h with h | h <;> cases f.trapClass <;> simp [h]

/-- A trap the function answers goes to EL2 with class 0x18, and only where the governing field exists, its condition
holds, no counter is missing and no exception of higher priority is given (rule R133). -/
theorem fgt2WriteCheck_trap {s : State} {r : NamedReg} {target : EL} {ec : BitVec 6}
    (h : fgt2WriteCheck s r = .raises (.systemAccessTrap target ec)) :
    target = .el2 ∧ ec = 0x18#6 ∧ s.cfg.featFGT2 = true ∧
      ∃ f, governingField r = some f ∧ f.existsIn s.cfg = true ∧ trapCond s f = true ∧
        counterMissing s r = false ∧ s.inputs.higherPriority = none := by
  unfold fgt2WriteCheck at h
  split at h
  · rename_i hp
    split at h
    · cases h
    · rename_i f hf
      split at h
      · rename_i hex
        unfold governedCheck at h
        split at h
        · cases h
        · rename_i hm
          split at h
          · cases h
          · rename_i hn
            split at h
            · rename_i ht
              cases h
              exact ⟨rfl, rfl, hp, f, hf, hex, ht, by simpa using hm, hn⟩
            · cases h
      · cases h
  · cases h

/-- The trap function where the governing field exists (rules R157, R176). -/
theorem fgt2WriteCheck_governed {s : State} {r : NamedReg} {f : Field} (hp : s.cfg.featFGT2 = true)
    (hg : governingField r = some f) (hx : f.existsIn s.cfg = true) :
    fgt2WriteCheck s r = governedCheck s r f := by
  simp [fgt2WriteCheck, hp, hg, hx]

/-- The trap function where no governing field exists (rule R135). -/
theorem fgt2WriteCheck_no_field {s : State} {r : NamedReg} (hp : s.cfg.featFGT2 = true)
    (hg : ∀ f, governingField r = some f → f.existsIn s.cfg = false) :
    fgt2WriteCheck s r = .notTrappedHere (f0IgnoresThisWrite s r) := by
  unfold fgt2WriteCheck
  rw [if_pos hp]
  split
  · rfl
  · rename_i f hf
    simp [hg f hf]

end Sys2Proof.Machine
end

