-- ==== Sys2Proof/Tests/Slice0.lean ====
section
/-! SUPPORT. Tests. Expected values are the spec's own: the vectors of 95_test_vectors.md (named E, A, W, M, Z, T, K) and
the worked examples of the rules; and, last, a witness for the hypotheses of every statement that has some. -/

namespace Sys2Proof.Tests

open Sys2Proof.Machine

/-! ### Small states and outcomes -/

/-- A small state: configuration, inputs, register; X1 is `v`. -/
def mk (c : Config) (i : Inputs) (reg v : Word64) : State :=
  ({ State.beforeReset with cfg := c, inputs := i, hdfgwtr2 := reg } : State).writeX 1 v

/-- The inputs of the vectors at a level. -/
def at' (el : EL) : Inputs := { Inputs.reset with el := el }

/-- Nested virtualisation at EL1 with this base. -/
def nested (base : Word64) : Inputs := { at' .el1 with hcrNV := true, hcrNV2 := true, nvBase := base }

/-- The configuration of the vectors with EL3. -/
def withEl3 : Config := { Config.reference with haveEl3 := true }

/-- No feature but FEAT_FGT2. -/
def bare : Config :=
  { Config.reference with
    featTRBEMPAM := false, featPMUv3p9 := false, featITE := false, featSPEFDS := false, featSPMU := false
    featPMUv3SS := false, featDebugv8p9 := false, featPMUv3ICNTR := false, featSEBEP := false, featEBEP := false }

/-- A program with one instruction word at address 0. -/
def running (w : InstrWord) (s : State) : State := { s with program := [(0, codeSlot w)] }

def nextOf : Result → Option State
  | .next s => some s
  | _ => none

def faultOf : Result → Option Fault
  | .fault f => some f
  | _ => none

def refusalOf : Result → Option Refusal
  | .refused r => some r
  | _ => none

def errorOf {α : Type} : Except DecodeError α → Option DecodeError
  | .error e => some e
  | .ok _ => none

def instrOf {α : Type} : Except DecodeError (Instr × α) → Option Instr
  | .ok (i, _) => some i
  | .error _ => none

/-! ### Decoding: words written out from the layout of rule R92 -/

-- Fixed 1101010100, L 1, op0 11, op1 100, CRn 0011, CRm 0001, op2 001, Rt 00011 (E2).
theorem test_decode_mrs_bits :
    instrOf (decode [0b00100011#8, 0b00110001#8, 0b00111100#8, 0b11010101#8]) = some (.mrs 3) := by decide

-- Fixed 1101010100, L 0, op0 11, op1 100, CRn 0011, CRm 0001, op2 001, Rt 00101 (E6).
theorem test_decode_msr_bits :
    instrOf (decode [0b00100101#8, 0b00110001#8, 0b00011100#8, 0b11010101#8]) = some (.msr 5) := by decide

theorem test_decode_table_words :
    decodeTableWord 32 0xD53C3120 = some (.mrs 0) ∧ decodeTableWord 32 0xD53C313E = some (.mrs 30) ∧
    decodeTableWord 32 0xD53C313F = some (.mrs 31) ∧ decodeTableWord 32 0xD51C3120 = some (.msr 0) ∧
    decodeTableWord 32 0xD51C313F = some (.msr 31) := by decide

-- E8, E10, E11, E13, and a decode of three bytes.
theorem test_decode_refuses :
    errorOf (decodeWord 0xD53C3100) = some (.notAnAccessor 0xD53C3100) ∧
    errorOf (decodeWord 0xD5383120) = some (.notAnAccessor 0xD5383120) ∧
    errorOf (decodeWord 0xD5343120) = some (.notAnAccessor 0xD5343120) ∧
    errorOf (decodeWord 0) = some (.notAnAccessor 0) ∧
    errorOf (decode [0x20#8, 0x31#8, 0x3C#8]) = some .truncated := by decide

-- E9, E12.
theorem test_decode_refuses_neighbours :
    errorOf (decodeWord 0xD53C3020) = some (.notAnAccessor 0xD53C3020) ∧
    errorOf (decodeWord 0xD51C3140) = some (.notAnAccessor 0xD51C3140) := by decide

theorem test_encode_bytes :
    encode (.mrs 0) = [0x20#8, 0x31#8, 0x3C#8, 0xD5#8] ∧ encode (.msr 0) = [0x20#8, 0x31#8, 0x1C#8, 0xD5#8] := by decide

/-! ### WellFormed refuses ill-formed terms -/

theorem test_storage_overlapping_a_field :
    ({ Config.reference with res0StorageMask := 0x400000 } : Config).storageWf = false := by decide

theorem test_bit5_left_out_with_17_breakpoints :
    ({ Config.reference with nmdselrChoice := false, mdselrEl1IsRazwi := true, numBreakpoints := 17 } : Config).nmdselrWf
      = false := by decide

theorem test_wellformed_needs_both :
    Config.reference.wellFormed = true ∧
    ({ Config.reference with res0StorageMask := 1 } : Config).wellFormed = false ∧
    ({ Config.reference with nmdselrChoice := false } : Config).wellFormed = false := by decide

theorem test_program_misaligned_address : ¬ programWf [(2, codeSlot 0xD53C3120#32)] := by decide

theorem test_program_not_rising : ¬ programWf [(4, codeSlot 0), (4, codeSlot 0)] := by decide

theorem test_inputs_base_misaligned : Inputs.wellFormed withEl3 (nested 0x80000800) = false := by decide

theorem test_inputs_el3_without_el3 : Inputs.wellFormed Config.reference (at' .el3) = false := by decide

theorem test_memory_not_rising : ¬ Memory.wf [(1, 5#8), (1, 6#8)] := by decide

theorem test_memory_lists_unlisted_value : ¬ Memory.wf [(1, 0#8)] := by decide

theorem test_memory_beyond_64_bits : ¬ Memory.wf [(2 ^ 64, 1#8)] := by decide

/-! ### The accessors -/

-- A18: at EL3 with FGTEn2 0 the stored value is read, not zero.
theorem test_mrs_at_el3 :
    (nextOf (exec (.mrs 0) (mk withEl3 (at' .el3) 0x200014 0))).map (fun s => (s.readX 0, s.pc)) = some (0x200014, 4) := by
  decide

-- A8 with M1's bytes, and M4's address.
theorem test_mrs_from_memory :
    (nextOf (exec (.mrs 0) { mk Config.reference (nested 0xFFFFFFFFFFFFF000) 0x200014 0 with
      mem := [(0xFFFFFFFFFFFFF1B0, 0xEF#8), (0xFFFFFFFFFFFFF1B7, 0x01#8)] })).map (fun s => s.readX 0)
      = some 0x01000000000000EF := by decide

-- A17 and W9: bit 6 is dropped, and kept where it is storage.
theorem test_msr_masks :
    (nextOf (exec (.msr 1) (mk withEl3 { at' .el2 with scrFGTEn2 := true, halted := true, edscrSDD := true }
      0x200014 0xFF))).map (fun s => s.hdfgwtr2) = some 0xBF ∧
    (nextOf (exec (.msr 1) (mk { withEl3 with res0StorageMask := 0x40 } (at' .el3) 0 0xFF))).map (fun s => s.hdfgwtr2)
      = some 0xFF := by decide

-- M1 in both byte orders.
theorem test_msr_to_memory :
    (nextOf (exec (.msr 1) (mk Config.reference (nested 0x80000000) 0 0x0123456789ABCDEF))).map (fun s => s.mem)
      = some [(0x800001B0, 0xEF#8), (0x800001B1, 0xCD#8), (0x800001B2, 0xAB#8), (0x800001B3, 0x89#8),
        (0x800001B4, 0x67#8), (0x800001B5, 0x45#8), (0x800001B6, 0x23#8), (0x800001B7, 0x01#8)] ∧
    (nextOf (exec (.msr 1) (mk { Config.reference with nvmemBigEndian := true } (nested 0x80000000) 0
      0x0123456789ABCDEF))).map (fun s => readByte s.mem 0x800001B0) = some 0x01 := by decide

-- A1, A5, A6, A13, A15, A16, A20, A21, A23, in this order.
theorem test_accessors_raise :
    faultOf (exec (.mrs 0) (mk Config.reference { nested 0 with el := .el0 } 0 0)) = some .undefined ∧
    faultOf (exec (.mrs 0) (mk Config.reference { at' .el1 with hcrNV2 := true } 0 0)) = some .undefined ∧
    faultOf (exec (.mrs 0) (mk Config.reference { at' .el1 with hcrNV := true } 0 0))
      = some (.systemAccessTrap .el2 0x18) ∧
    faultOf (exec (.mrs 0) (mk withEl3 (at' .el2) 0 0)) = some (.systemAccessTrap .el3 0x18) ∧
    faultOf (exec (.mrs 0) (mk withEl3 { at' .el2 with halted := true } 0 0)) = some (.systemAccessTrap .el3 0x18) ∧
    faultOf (exec (.mrs 0) (mk withEl3 { at' .el2 with halted := true, edscrSDD := true } 0 0)) = some .undefined ∧
    faultOf (exec (.msr 1) (mk { withEl3 with featFGT2 := false } (at' .el3) 0 0)) = some .undefined ∧
    faultOf (exec (.mrs 31) (mk withEl3 (at' .el2) 0 0)) = some (.systemAccessTrap .el3 0x18) ∧
    faultOf (exec (.msr 1) (mk Config.reference { nested 0 with nvMemFault := some ⟨7⟩ } 0 0)) = some (.other ⟨7⟩) := by
  decide

-- W4, W5, W12, W17 and the full mask.
theorem test_masks :
    writeValue Config.reference 0xDEADBEEFCAFEF00D = 0x78F00D ∧ writeValue Config.reference 0x0123456789ABCDEF = 0x29CDAF ∧
    fieldMask { bare with featPMUv3SS := true } = 0x81 ∧
    fieldMask { bare with featTRBEMPAM := true, featITE := true, featSPEFDS := true, featSEBEP := true } = 0x580002 ∧
    fieldMask Config.reference = 0x79FFBF ∧ res0Mask Config.reference = 0xFFFFFFFFFF860040 := by decide

-- W15 and W16.
theorem test_bit5_choice :
    fieldMask { bare with featDebugv8p9 := true, nmdselrChoice := false, mdselrEl1IsRazwi := true } = 0 ∧
    fieldMask { bare with featDebugv8p9 := true } = 0x20 := by decide

-- Rule R5: forced true without FEAT_Debugv8p9, though the three bounds hold and the choice is false.
theorem test_bit5_parameter_forced :
    ({ bare with nmdselrChoice := false, mdselrEl1IsRazwi := true } : Config).nmdselrFieldImplemented = true ∧
    ({ bare with featDebugv8p9 := true, nmdselrChoice := false, mdselrEl1IsRazwi := true }
      : Config).nmdselrFieldImplemented = false := by decide

-- Z1.
theorem test_reset_register : State.reset.hdfgwtr2 = 0 := by decide

-- The syndromes of A6 and A7.
theorem test_syndromes :
    esrValue trapEc (accessorIss (.mrs 0)) = 0x62330C03 ∧ esrValue trapEc (accessorIss (.msr 1)) = 0x62330C22 := by decide

-- A6 from a lower level; A4, taken to the current level; A16, in Debug state.
theorem test_entry_records :
    entryRecord (.mrs 0) (trapFault .el2) (mk Config.reference { at' .el1 with hcrNV := true } 0 0)
      = some ⟨.el2, 0x18, 0x330C03, some ⟨0, true, 15, 0x400⟩⟩ ∧
    entryRecord (.mrs 0) .undefined (mk Config.reference (at' .el1) 0 0) = some ⟨.el1, 0, 0, none⟩ ∧
    entryRecord (.mrs 0) .undefined (mk withEl3 { at' .el2 with halted := true, edscrSDD := true } 0 0) = none := by
  decide

/-! ### The step -/

theorem test_step_runs_placed_mrs :
    (nextOf (step (State.reset.withFetchWord 32 0xD53C3120))).map (fun s => s.pc) = some 4 := by decide

theorem test_step_runs_placed_msr :
    (nextOf (step ({ State.reset with hdfgwtr2 := 1 }.withFetchWord 32 0xD51C313F))).map (fun s => s.hdfgwtr2)
      = some 0 := by decide

-- P5 row e, and a pc with nothing at it.
theorem test_step_refuses :
    refusalOf (step (State.reset.withFetchWord 32 0xD53C3100)) = some (.undecodable (.notAnAccessor 0xD53C3100)) ∧
    refusalOf (step State.reset) = some (.noInstructionAt 0) := by decide

-- Scheduled inputs come into force after the step.
theorem test_step_takes_inputs :
    (nextOf (step (running 0xD53C3120 { State.reset with schedule := [at' .el1] }))).map (fun s => s.inputs.el)
      = some .el1 := by decide

/-! ### The trap function -/

/-- The rows of table 2.6: bit, write, and whether the class is EL1 and EL0. -/
def table : List (Nat × NamedReg × Bool) :=
  [(22, .trbmpamEl1, true), (21, .pmzrEl0, true), (20, .trcitecrEl1, false), (19, .pmsdsfrEl1, false),
   (16, .spmscrEl1, false), (15, .spmaccessrEl1, false), (14, .spmcrEl0, true), (13, .spmovslrEl0, true),
   (12, .spmintensetEl1, false), (11, .spmcntensetEl0, true), (10, .spmselrEl0, true), (9, .spmevfiltrEl0 0, true),
   (8, .spmevcntrEl0 0, true), (7, .pmsscrEl1, false), (5, .mdselrEl1, false), (4, .pmuacrEl1, false),
   (3, .pmicfiltrEl0, true), (2, .pmicntrEl0, true), (1, .pmiarEl1, false), (0, .pmecrEl1, false)]

/-- Whether the write is trapped to EL2 with class 0x18. -/
def traps (c : Config) (i : Inputs) (reg : Word64) (r : NamedReg) : Bool :=
  fgt2WriteCheck (mk c i reg 0) r == .raises (.systemAccessTrap .el2 0x18)

-- T1 to T20, columns 5 to 7.
theorem test_table_el1 : ∀ row ∈ table,
    traps Config.reference (at' .el1) 0 row.2.1 = true ∧
    traps Config.reference (at' .el1) (1#64 <<< row.1) row.2.1 = false ∧
    traps Config.reference (at' .el1) (0x79FFBF#64 &&& ~~~ (1#64 <<< row.1)) row.2.1 = true := by decide

-- T1 to T20, columns 8 to 10.
theorem test_table_el0_e2h_el3 : ∀ row ∈ table,
    traps Config.reference (at' .el0) 0 row.2.1 = row.2.2 ∧
    traps Config.reference { at' .el1 with hcrE2H := true, hcrTGE := true } 0 row.2.1 = !row.2.2 ∧
    traps withEl3 (at' .el1) (1#64 <<< row.1) row.2.1 = true := by decide

-- K2, K7, K9, K10, K13, K16.
theorem test_trap_corners :
    fgt2WriteCheck (mk { Config.reference with featPMUv3p9 := false } (at' .el1) 0 0) .pmuacrEl1 = .notTrappedHere false ∧
    fgt2WriteCheck (mk Config.reference { at' .el1 with higherPriority := some ⟨3⟩ } 0 0) .pmuacrEl1
      = .raises (.other ⟨3⟩) ∧
    fgt2WriteCheck (mk { Config.reference with spmuEventCounters := [0, 2] } (at' .el1) 0 0) (.spmevfiltrEl0 5)
      = .raises .undefined ∧
    fgt2WriteCheck (mk { Config.reference with spmuEventCounters := [0, 2] } (at' .el1) 0x200 0) (.spmevtyperEl0 5)
      = .raises .undefined ∧
    traps Config.reference (at' .el1) 0x200 (.spmevcntrEl0 2) = true ∧
    traps withEl3 (at' .el3) 0 .pmzrEl0 = false := by decide

-- K20, K21, K24, K25, K26, K27, K29.
theorem test_f0_corners :
    fgt2WriteCheck (mk Config.reference (at' .el1) 0x200000 0) .pmzrEl0 = .notTrappedHere true ∧
    fgt2WriteCheck (mk Config.reference (at' .el1) 0x200004 0) .pmzrEl0 = .notTrappedHere false ∧
    fgt2WriteCheck (mk { Config.reference with featPMUv3ICNTR := false } (at' .el1) 0x200000 0) .pmzrEl0
      = .notTrappedHere false ∧
    fgt2WriteCheck (mk Config.reference (at' .el0) 0 0) .pmcntensetEl0 = .notTrappedHere true ∧
    fgt2WriteCheck (mk Config.reference (at' .el0) 0 0) .pmintensetEl1 = .notTrappedHere false ∧
    fgt2WriteCheck (mk Config.reference (at' .el1) 0 0) .pmintenclrEl1 = .notTrappedHere true ∧
    fgt2WriteCheck (mk Config.reference (at' .el1) 0 0) (.other 9) = .notTrappedHere false := by decide

-- A step that is a write identified by name: trapped (T16), not trapped, in Debug state, and a read (K30).
theorem test_named_steps :
    faultOf (execNamed ⟨.write, .pmuacrEl1, 0⟩ (mk Config.reference (at' .el1) 0 0)) = some (.systemAccessTrap .el2 0x18) ∧
    refusalOf (execNamed ⟨.write, .pmuacrEl1, 0⟩ (mk Config.reference (at' .el1) 0x10 0)) = some (.notTrappedHere false) ∧
    refusalOf (execNamed ⟨.write, .pmuacrEl1, 0⟩ (mk Config.reference { at' .el1 with halted := true } 0 0))
      = some .namedWriteInDebugState ∧
    refusalOf (execNamed ⟨.read, .pmuacrEl1, 0⟩ (mk Config.reference (at' .el1) 0 0)) = some .namedReadNotGoverned := by
  decide

/-! ### Witnesses: each statement's hypotheses are met together by a concrete state -/

/-- EL2 without EL3. -/
def atEl2 : State := mk Config.reference (at' .el2) 0x200014 0xFF

/-- EL2 that EL3 lets in. -/
def atEl2Let : State := mk withEl3 { at' .el2 with scrFGTEn2 := true } 0x200014 0xFF

/-- EL2 that EL3 keeps out. -/
def atEl2Kept : State := mk withEl3 (at' .el2) 0x200014 0xFF

def atEl3 : State := mk withEl3 (at' .el3) 0x200014 0xFF

/-- EL1 with the memory copy at this base. -/
def atCopy (base : Word64) : State := mk Config.reference (nested base) 0x200014 0xFF

/-- EL1 with this register, where every existing field at 0 traps. -/
def atEl1 (reg : Word64) : State := mk Config.reference (at' .el1) reg 0xFF

/-- The same with EL3 implemented and FGTEn2 0. -/
def atEl1Zeroed (reg : Word64) : State := mk withEl3 (at' .el1) reg 0xFF

def withFault (s : State) : State := { s with inputs := { s.inputs with nvMemFault := some ⟨7⟩ } }

def withHigher (s : State) : State := { s with inputs := { s.inputs with higherPriority := some ⟨3⟩ } }

def mrsX0 : InstrWord := 0xD53C3120

def msrX1 : InstrWord := 0xD51C3121

theorem witness_StepRunsTheDecodedInstruction :
    pcAligned (running mrsX0 atEl2).pc = true ∧
    slotAt (running mrsX0 atEl2).program (running mrsX0 atEl2).pc.toNat = some (.code 0x20 0x31 0x3C 0xD5) ∧
    decode [0x20, 0x31, 0x3C, 0xD5] = .ok (.mrs 0, []) ∧
    (∃ t, exec (.mrs 0) (running mrsX0 atEl2) = .next t ∧ t.schedule = []) ∧
    (∃ t, exec (.mrs 0) { running mrsX0 atEl2 with schedule := [at' .el1] } = .next t ∧ t.schedule = at' .el1 :: []) ∧
    (∃ f, exec (.mrs 0) (running mrsX0 (atEl1 0)) = .fault f) ∧
    (∃ r, exec (.mrs 0) (running mrsX0 (atCopy 8)) = .refused r) :=
  ⟨by decide, by decide, rfl, ⟨_, rfl, rfl⟩, ⟨_, rfl, rfl⟩, ⟨_, rfl⟩, ⟨_, rfl⟩⟩

theorem witness_StepRefusesEveryOtherWord :
    pcAligned (running 0xD53C3100 atEl2).pc = true ∧
    slotAt (running 0xD53C3100 atEl2).program (running 0xD53C3100 atEl2).pc.toNat = some (.code 0x00 0x31 0x3C 0xD5) ∧
    (∀ t : RegNum, 0xD5#8 ++ 0x3C#8 ++ 0x31#8 ++ 0x00#8 ≠ 0xD53C3120#32 ||| t.setWidth 32) ∧
    (∀ t : RegNum, 0xD5#8 ++ 0x3C#8 ++ 0x31#8 ++ 0x00#8 ≠ 0xD51C3120#32 ||| t.setWidth 32) :=
  ⟨by decide, by decide, by decide, by decide⟩

/-- A program with one write identified by name at address 0. -/
def runningNamed (r : NamedReg) (s : State) : State := { s with program := [(0, .named ⟨.write, r, 0⟩)] }

theorem witness_StepRunsTheNamedAccess :
    pcAligned (runningNamed .pmuacrEl1 (atEl1 0)).pc = true ∧
    slotAt (runningNamed .pmuacrEl1 (atEl1 0)).program (runningNamed .pmuacrEl1 (atEl1 0)).pc.toNat
      = some (.named ⟨.write, .pmuacrEl1, 0⟩) := by decide

theorem witness_PlacedWordIsFetched : pcAligned ({ atEl2 with pc := 0xFFFFFFFFFFFFFFFC } : State).pc = true := by decide

/-- For MrsReadsTheRegister, MsrWritesTheRegister, ZeroRegisterAccesses and ReadAfterWrite: rows 6, 7 and 11, and a
register number at the edge of the ordinary ones. -/
theorem witness_register_rows :
    (∀ s ∈ [atEl2, atEl2Let, atEl3], s.cfg.featFGT2 = true ∧ RegisterRow s) ∧ 30#5 ≠ 31#5 := by decide

theorem witness_MsrWritesTheRegister_bits :
    Field.nTRBMPAM_EL1.existsIn atEl2.cfg = true ∧
    ({ atEl2 with cfg := { atEl2.cfg with res0StorageMask := 0x8000000000000000 } } : State).cfg.res0StorageMask.getLsbD 63
      = true ∧
    (∀ f : Field, f.existsIn atEl2.cfg = true → f.bit ≠ 23) ∧ atEl2.cfg.res0StorageMask.getLsbD 23 = false :=
  ⟨by decide, by decide, fun f => by cases f <;> decide, by decide⟩

/-- For MrsReadsTheMemoryCopy, MsrWritesTheMemoryCopy and ReadAfterWrite: both ends of the address space, and the bytes
at and just outside both ends of the copy. -/
theorem witness_memory_row :
    (∀ s ∈ [atCopy 0, atCopy 0xFFFFFFFFFFFFF000], s.cfg.featFGT2 = true ∧ MemoryRow s ∧
      nvBaseAligned s.inputs.nvBase = true ∧ s.inputs.nvMemFault = none) ∧
    InMemoryCopy (atCopy 0) 0x1B0 ∧ InMemoryCopy (atCopy 0) 0x1B7 ∧
    ¬ InMemoryCopy (atCopy 0) 0x1AF ∧ ¬ InMemoryCopy (atCopy 0) 0x1B8 := by decide

theorem witness_AccessorsRaiseByTheTable :
    (∀ i ∈ [at' .el0, { at' .el1 with el2Enabled := false, hcrNV := true }, { at' .el1 with hcrNV2 := true },
        { at' .el2 with halted := true, edscrSDD := true }],
      (mk withEl3 i 0 0).cfg.featFGT2 = true ∧ UndefinedRow (mk withEl3 i 0 0)) ∧
    TrapToEl2Row (mk withEl3 { at' .el1 with hcrNV := true } 0 0) ∧
    TrapToEl3Row (mk withEl3 { at' .el2 with halted := true } 0 0) ∧
    TrapToEl3Row (mk withEl3 { at' .el2 with edscrSDD := true } 0 0) ∧
    (MemoryRow (withFault (atCopy 0)) ∧ nvBaseAligned (withFault (atCopy 0)).inputs.nvBase = true ∧
      (withFault (atCopy 0)).inputs.nvMemFault = some ⟨7⟩) := by decide

theorem witness_AbsentRegisterIsUndefined :
    ({ atEl3 with cfg := { withEl3 with featFGT2 := false } } : State).cfg.featFGT2 = false ∧
    decodeWord (0xD53C3120#32 ||| (31#5).setWidth 32) = .ok (.mrs 31) ∧
    decodeWord (0xD51C3120#32 ||| (0#5).setWidth 32) = .ok (.msr 0) := ⟨by decide, rfl, rfl⟩

/-- For TrapPriorityBooleanUnobservable and, below EL2, RegisterHiddenBelowItsOwners: each of the three outcomes. -/
theorem witness_each_outcome :
    (∃ t, exec (.mrs 0) (atCopy 0) = .next t) ∧
    (∃ f, exec (.mrs 0) atEl2Kept = .fault f) ∧
    (∃ r, exec (.mrs 0) (atCopy 8) = .refused r) ∧
    ¬ RegisterRow (atCopy 0) ∧ ¬ RegisterRow atEl2Kept ∧ ¬ RegisterRow (atCopy 8) :=
  ⟨⟨_, rfl⟩, ⟨_, rfl⟩, ⟨_, rfl⟩, by decide, by decide, by decide⟩

theorem witness_AccessorFrame :
    (∃ t, exec (.mrs 30) atEl3 = .next t) ∧
    ((∃ t, exec (.msr 1) (atCopy 0) = .next t) ∧ (atCopy 0).inputs.el = .el1) ∧
    ((∃ t, exec (.msr 1) atEl2 = .next t) ∧ atEl2.inputs.el ≠ .el1) :=
  ⟨⟨_, rfl⟩, ⟨⟨_, rfl⟩, rfl⟩, ⟨⟨_, rfl⟩, by decide⟩⟩

theorem witness_MemoryCopyIsAligned :
    nvBaseAligned (atCopy 0xFFFFFFFFFFFFF000).inputs.nvBase = true ∧
    ((atCopy 1).cfg.featFGT2 = true ∧ MemoryRow (atCopy 1) ∧ (atCopy 1).inputs.nvBase.toNat % 4096 ≠ 0) ∧
    (MemoryRow (atCopy 0xFFF) ∧ (atCopy 0xFFF).inputs.nvBase.toNat % 4096 ≠ 0) := by decide

theorem witness_AccessorStepsStayInSpec :
    pcAligned (running mrsX0 (atCopy 0x1000)).pc = true ∧
    slotAt (running mrsX0 (atCopy 0x1000)).program (running mrsX0 (atCopy 0x1000)).pc.toNat
      = some (.code 0x20 0x31 0x3C 0xD5) ∧
    decode [0x20, 0x31, 0x3C, 0xD5] = .ok (.mrs 0, []) ∧
    nvBaseAligned (running mrsX0 (atCopy 0x1000)).inputs.nvBase = true := ⟨by decide, by decide, rfl, by decide⟩

theorem witness_OnlyMsrAtEl2OrEl3ChangesTheRegister :
    ∃ t, step (running msrX1 atEl2) = .next t ∧ t.hdfgwtr2 ≠ (running msrX1 atEl2).hdfgwtr2 := ⟨_, rfl, by decide⟩

theorem witness_EffectiveValueDecidesTraps :
    ((atEl1Zeroed 0).cfg = (atEl1Zeroed 0x79FFBF).cfg ∧ (atEl1Zeroed 0).inputs = (atEl1Zeroed 0x79FFBF).inputs ∧
      ∀ f, eff (atEl1Zeroed 0) f = eff (atEl1Zeroed 0x79FFBF) f) ∧
    (atEl3.cfg.featFGT2 = true ∧ atEl3.inputs.el = .el3) ∧
    (FieldsTreatedAsZero (atEl1Zeroed 0x79FFBF) ∧ (atEl1Zeroed 0x79FFBF).cfg.featFGT2 = true ∧
      governingField (.spmevcntrEl0 15) = some .nSPMEVCNTRn_EL0 ∧
      Field.nSPMEVCNTRn_EL0.existsIn (atEl1Zeroed 0x79FFBF).cfg = true ∧
      counterMissing (atEl1Zeroed 0x79FFBF) (.spmevcntrEl0 15) = false ∧
      (atEl1Zeroed 0x79FFBF).inputs.higherPriority = none ∧ (atEl1Zeroed 0x79FFBF).inputs.el = .el1 ∧
      (atEl1Zeroed 0x79FFBF).inputs.el2Enabled = true ∧ ¬ E2hTgeBothSet (atEl1Zeroed 0x79FFBF)) :=
  ⟨⟨rfl, rfl, fun f => by cases f <;> decide⟩, ⟨rfl, rfl⟩, by decide⟩

theorem witness_TrapConditionsOfTheClasses :
    (Field.nPMECR_EL1.trapClass = .el1Only ∧ trapCond (atEl1 0) .nPMECR_EL1 = true) ∧
    (Field.nTRBMPAM_EL1.trapClass = .el1AndEl0 ∧ trapCond (atEl1 0) .nTRBMPAM_EL1 = true) ∧
    governingField .trbmpamEl1 = some .nTRBMPAM_EL1 := by decide

theorem witness_SatisfiedConditionTrapsToEl2 :
    (∀ s ∈ [atEl1 0, withHigher (atEl1 0)], ∀ r ∈ [NamedReg.spmevcntrEl0 15, .spmevcntrEl0 16],
      s.cfg.featFGT2 = true ∧ governingField r = some .nSPMEVCNTRn_EL0 ∧ Field.nSPMEVCNTRn_EL0.existsIn s.cfg = true ∧
      trapCond s .nSPMEVCNTRn_EL0 = true) ∧
    counterMissing (atEl1 0) (.spmevcntrEl0 15) = false ∧ counterMissing (atEl1 0) (.spmevcntrEl0 16) = true ∧
    (atEl1 0).inputs.higherPriority = none ∧ (withHigher (atEl1 0)).inputs.higherPriority = some ⟨3⟩ ∧
    fgt2WriteCheck (atEl1 0) .pmuacrEl1 = .raises (.systemAccessTrap .el2 0x18#6) ∧ (atEl1 0).inputs.halted = false := by
  decide

/-- For El1OnlyFieldWrites: a row whose field exists, one whose field does not, and each clause of the first. -/
theorem witness_El1OnlyFieldWrites :
    (NamedReg.pmecrEl1, 0, true) ∈
      [(NamedReg.trcitecrEl1, 20, (atEl1 0).cfg.featITE), (.pmsdsfrEl1, 19, (atEl1 0).cfg.featSPEFDS),
       (.spmscrEl1, 16, (atEl1 0).cfg.featSPMU), (.spmaccessrEl1, 15, (atEl1 0).cfg.featSPMU),
       (.spmintenclrEl1, 12, (atEl1 0).cfg.featSPMU), (.spmintensetEl1, 12, (atEl1 0).cfg.featSPMU),
       (.pmsscrEl1, 7, (atEl1 0).cfg.featPMUv3SS),
       (.mdselrEl1, 5, (atEl1 0).cfg.featDebugv8p9 && (atEl1 0).cfg.nmdselrFieldImplemented),
       (.pmuacrEl1, 4, (atEl1 0).cfg.featPMUv3p9), (.pmiarEl1, 1, (atEl1 0).cfg.featSEBEP),
       (.pmecrEl1, 0, (atEl1 0).cfg.featEBEP || (atEl1 0).cfg.featPMUv3SS)] ∧
    ¬ ((mk bare (at' .el1) 0 0).cfg.featFGT2 = true ∧
      ((mk bare (at' .el1) 0 0).cfg.featEBEP || (mk bare (at' .el1) 0 0).cfg.featPMUv3SS) = true) ∧
    ((atEl1 0).cfg.featFGT2 = true ∧ (withHigher (atEl1 0)).inputs.higherPriority = some ⟨3⟩) ∧
    ((atEl1 0).inputs.higherPriority = none ∧ (atEl1 0).inputs.el = .el1 ∧ (atEl1 0).inputs.el2Enabled = true ∧
      ActsAsZero (atEl1 0) 0 ∧ ActsAsZero (atEl1Zeroed 1) 0) ∧
    ¬ ((atEl1 1).inputs.el = .el1 ∧ (atEl1 1).inputs.el2Enabled = true ∧ ActsAsZero (atEl1 1) 0) := by decide

/-- For El1AndEl0FieldWrites, TrbmpamWrites, PmicfiltrWritesAndF0, PmzrUnderBits21And2 and EventCounterFamilyWrites: EL1 and EL0, the condition
met and not met, bits at 0 and at 1, and both values of `F0`. -/
theorem witness_el1_and_el0_writes :
    (∀ el ∈ [EL.el1, .el0], ∀ b ∈ [22, 21, 14, 3, 2],
      (mk Config.reference (at' el) 0 0).cfg.featFGT2 = true ∧
      (mk Config.reference (at' el) 0 0).inputs.higherPriority = none ∧
      ((mk Config.reference (at' el) 0 0).inputs.el = .el1 ∨ (mk Config.reference (at' el) 0 0).inputs.el = .el0) ∧
      (mk Config.reference (at' el) 0 0).inputs.el2Enabled = true ∧ ¬ E2hTgeBothSet (mk Config.reference (at' el) 0 0) ∧
      ActsAsZero (mk Config.reference (at' el) 0 0) b ∧ ¬ ActsAsZero (mk Config.reference (at' el) 0x79FFBF 0) b) ∧
    E2hTgeBothSet (mk Config.reference { at' .el1 with hcrE2H := true, hcrTGE := true } 0 0) ∧
    (¬ ActsAsZero (atEl1 0x200000) 21 ∧ ActsAsZero (atEl1 0x200000) 2) ∧
    ((atEl1 0).cfg.featPMUv3p9 = true ∧ (atEl1 0).cfg.featPMUv3ICNTR = true ∧ (atEl1 0).cfg.featTRBEMPAM = true) := by
  decide

/-- For El1AndEl0FieldWrites: the last row of the list, and PMZR_EL0 with its `F0` condition met and not. -/
theorem witness_El1AndEl0FieldWrites :
    (NamedReg.pmicntrEl0, 2, true) ∈
      [(NamedReg.pmzrEl0, 21, (atEl1 0).cfg.featPMUv3p9), (.spmcrEl0, 14, (atEl1 0).cfg.featSPMU),
       (.spmovslrEl0, 13, (atEl1 0).cfg.featSPMU), (.spmovsetEl0, 13, (atEl1 0).cfg.featSPMU),
       (.spmcntenclrEl0, 11, (atEl1 0).cfg.featSPMU), (.spmcntensetEl0, 11, (atEl1 0).cfg.featSPMU),
       (.spmselrEl0, 10, (atEl1 0).cfg.featSPMU), (.pmicntrEl0, 2, (atEl1 0).cfg.featPMUv3ICNTR)] ∧
    (((true = true) ↔ (NamedReg.pmzrEl0 = .pmzrEl0 ∧ ((atEl1 0).inputs.el = .el1 ∨ (atEl1 0).inputs.el = .el0) ∧
      (atEl1 0).inputs.el2Enabled = true ∧ ¬ E2hTgeBothSet (atEl1 0) ∧ ActsAsZero (atEl1 0) 2 ∧
      (atEl1 0).cfg.featFGT2 = true ∧ (atEl1 0).cfg.featPMUv3ICNTR = true)) ∧ NamedReg.pmicntrEl0 ≠ .pmzrEl0) ∧
    (withHigher (atEl1 0)).inputs.higherPriority = some ⟨3⟩ ∧
    ¬ ((mk bare (at' .el1) 0 0).cfg.featFGT2 = true ∧ (mk bare (at' .el1) 0 0).cfg.featPMUv3ICNTR = true) := by decide

theorem witness_EventCounterFamilyWrites :
    (NamedReg.spmevcntrEl0 16, 8) ∈
      [(NamedReg.spmevtyperEl0 16, 9), (.spmevfiltrEl0 16, 9), (.spmevfilt2rEl0 16, 9), (.spmevcntrEl0 16, 8)] ∧
    ((atEl1 0).cfg.featFGT2 = true ∧ (atEl1 0).cfg.featSPMU = true) ∧
    ¬ ((mk bare (at' .el1) 0 0).cfg.featFGT2 = true ∧ (mk bare (at' .el1) 0 0).cfg.featSPMU = true) ∧
    16 ∉ (atEl1 0).cfg.spmuEventCounters ∧ 15 ∈ (atEl1 0).cfg.spmuEventCounters ∧ ActsAsZero (atEl1 0) 8 ∧
    ¬ ActsAsZero (atEl1 0x100) 8 := by decide

/-- For TrbmpamWrites and PmicfiltrWritesAndF0: the field there, and absent with either feature; the oracle answering and
not; and the condition met, and failing by the bit, by the level, by EL2 and by E2H and TGE. -/
theorem witness_bits_22_and_3 :
    ((atEl1 0).cfg.featFGT2 = true ∧ (atEl1 0).cfg.featTRBEMPAM = true ∧ (atEl1 0).cfg.featPMUv3ICNTR = true) ∧
    (bare.featFGT2 = true ∧ bare.featTRBEMPAM = false ∧ bare.featPMUv3ICNTR = false) ∧
    ({ Config.reference with featFGT2 := false } : Config).featFGT2 = false ∧
    (withHigher (atEl1 0)).inputs.higherPriority = some ⟨3⟩ ∧ (atEl1 0).inputs.higherPriority = none ∧
    (∀ b ∈ [22, 3], (atEl1 0).inputs.el = .el1 ∧ (atEl1 0).inputs.el2Enabled = true ∧ ¬ E2hTgeBothSet (atEl1 0) ∧
      ActsAsZero (atEl1 0) b ∧ ActsAsZero (atEl1Zeroed 0x79FFBF) b ∧ ¬ ActsAsZero (atEl1 0x400008) b) ∧
    ¬ (atEl2.inputs.el = .el1 ∨ atEl2.inputs.el = .el0) ∧
    (mk Config.reference { at' .el1 with el2Enabled := false } 0 0).inputs.el2Enabled = false ∧
    E2hTgeBothSet (mk Config.reference { at' .el0 with hcrE2H := true, hcrTGE := true } 0 0) := by decide

theorem witness_PolarityOfEveryField :
    (¬ FieldsTreatedAsZero (atEl1 0x400001) ∧ Field.nPMECR_EL1.existsIn (atEl1 0x400001).cfg = true ∧
      (atEl1 0x400001).hdfgwtr2.getLsbD Field.nPMECR_EL1.bit = true) ∧
    (Field.nPMIAR_EL1.existsIn (atEl1 0x400001).cfg = true ∧
      (atEl1 0x400001).hdfgwtr2.getLsbD Field.nPMIAR_EL1.bit = false ∧ (atEl1 0x400001).inputs.el = .el1 ∧
      (atEl1 0x400001).inputs.el2Enabled = true ∧ ¬ E2hTgeBothSet (atEl1 0x400001)) ∧
    (atEl1 0x79FFBF).hdfgwtr2 = fieldMask (atEl1 0x79FFBF).cfg ∧ (atEl1 0).hdfgwtr2 = 0 := by decide

theorem witness_TrapFunctionReadsOnlyItsInputs :
    ((atEl1 0).cfg = ((atEl1 0).writeX 2 7).cfg ∧ (atEl1 0).hdfgwtr2 = ((atEl1 0).writeX 2 7).hdfgwtr2 ∧
      (atEl1 0).inputs = ((atEl1 0).writeX 2 7).inputs) ∧
    0xFFFFFFFFFF860040#64 &&& fieldMask (atEl1 0).cfg = (atEl1 0).hdfgwtr2 &&& fieldMask (atEl1 0).cfg := by decide

theorem witness_NoTrapAboveEl1 :
    atEl2.inputs.el = .el2 ∧ atEl3.inputs.el = .el3 ∧ governingField .pmcntensetEl0 = none := by decide

theorem witness_NamedAccessesStopByName :
    (atEl1 0).inputs.halted = false ∧ (mk Config.reference { at' .el1 with halted := true } 0 0).inputs.halted = true := by
  decide

/-- For WarmResetBitByBit and ReservedPositions: the top bit, a field's bit, and a reserved one between fields. -/
theorem witness_bit_positions :
    63 < 64 ∧ Field.nTRBMPAM_EL1.bit = 22 ∧ 22 < 64 ∧ (res0Mask Config.reference).getLsbD 63 = true ∧
    (res0Mask Config.reference).getLsbD 6 = true ∧ (res0Mask Config.reference).getLsbD 22 = false ∧
    Field.nTRBMPAM_EL1.existsIn bare = false := by decide

theorem witness_WarmResetEnablesEveryTrap :
    (atEl1 0x79FFBF).cfg.haveEl3 = false ∧ (atEl1 0x79FFBF).cfg.res0StorageMask = 0 ∧
    (atEl1 0x79FFBF).cfg.featFGT2 = true ∧ governingField .pmecrEl1 = some .nPMECR_EL1 ∧
    Field.nPMECR_EL1.existsIn (atEl1 0x79FFBF).cfg = true ∧ counterMissing (atEl1 0x79FFBF) .pmecrEl1 = false ∧
    (atEl1 0x79FFBF).inputs.higherPriority = none ∧ (atEl1 0x79FFBF).inputs.el = .el1 ∧
    (atEl1 0x79FFBF).inputs.el2Enabled = true ∧ ¬ E2hTgeBothSet (atEl1 0x79FFBF) := by decide

/-- For WarmResetKeepsTheInvariant, EveryStepKeepsTheInvariant and RunsKeepConfigurationAndProgram: a state with listed
memory, a program and a register in its fields, from which a step completes. -/
theorem witness_invariant_and_step :
    Inv (running msrX1 { atCopy 0x80000000 with mem := [(0x800001B0, 1#8)] }) ∧
    ∃ t, step (running msrX1 { atCopy 0x80000000 with mem := [(0x800001B0, 1#8)] }) = .next t :=
  ⟨⟨by decide, by decide, by decide, by decide⟩, ⟨_, rfl⟩⟩

theorem witness_Reaches : ∃ t, Reaches (running msrX1 atEl2) t ∧ t.pc = 4 :=
  ⟨_, .step rfl (.refl _), by decide⟩

end Sys2Proof.Tests
end

section
/-! The polarity of the fields: a trap condition holds only where the field's bit acts as 0 (rules R25, R132). -/

namespace Sys2Proof.Machine

/-- Whatever the class of the field, its trap condition contains `Eff(b) == 0` (rule R132). -/
theorem actsAsZero_of_trapCond {s : State} {f : Field} (h : trapCond s f = true) : ActsAsZero s f.bit := by
  cases hc : f.trapClass with
  | el1Only =>
    obtain ⟨_, _, hzero⟩ := (trapCond_el1Only hc).mp h
    exact hzero
  | el1AndEl0 =>
    obtain ⟨_, _, _, hzero⟩ := (trapCond_el1AndEl0 hc).mp h
    exact hzero

/-- At EL1 with EL2 enabled and E2H, TGE not both 1, the two classes of rule R132 agree and only the bit decides. -/
theorem trapCond_at_el1_iff {s : State} (f : Field) (hel : s.inputs.el = .el1) (hen : s.inputs.el2Enabled = true)
    (htge : ¬ E2hTgeBothSet s) : trapCond s f = true ↔ ActsAsZero s f.bit := by
  refine ⟨actsAsZero_of_trapCond, fun hzero => ?_⟩
  cases hc : f.trapClass with
  | el1Only => exact (trapCond_el1Only hc).mpr ⟨hel, hen, hzero⟩
  | el1AndEl0 => exact (trapCond_el1AndEl0 hc).mpr ⟨.inl hel, hen, htge, hzero⟩

/-- While the stored bits count, a field at 1 never traps (rule R25). -/
theorem trapCond_eq_false_of_bit_set {s : State} {f : Field} (hcount : ¬ FieldsTreatedAsZero s)
    (hset : s.hdfgwtr2.getLsbD f.bit = true) : trapCond s f = false := by
  rw [Bool.eq_false_iff]
  intro htrap
  rcases actsAsZero_of_trapCond htrap with hzeroed | hclear
  · exact hcount hzeroed
  · simp [hset] at hclear

/-- Settles O31: both classes decide by the bit, `FIELD_MASK` has every existing field's bit and the value 0 has none. -/
theorem polarityOfEveryField : Obligations.PolarityOfEveryField := by
  intro s f hcount hexists
  refine ⟨trapCond_eq_false_of_bit_set hcount, fun hclear hel hen htge => ?_, fun hmask => ?_,
    fun hzero hel hen htge => ?_⟩
  · exact (trapCond_at_el1_iff f hel hen htge).mpr (.inr hclear)
  · have hset : s.hdfgwtr2.getLsbD f.bit = true := by
      rw [hmask]
      exact (fieldMask_getLsbD s.cfg f.bit).mpr ⟨f, hexists, rfl⟩
    exact trapCond_eq_false_of_bit_set hcount hset
  · have hclear : s.hdfgwtr2.getLsbD f.bit = false := by simp [hzero]
    exact (trapCond_at_el1_iff f hel hen htge).mpr (.inr hclear)

end Sys2Proof.Machine
end

section
/-! The reserved positions of HDFGWTR2_EL2: where no field is named, and where the named field is absent (rule R22). -/

namespace Sys2Proof.Machine

/-- No field is named at bits 63:23, 18:17 or 6 (rules R21, R22). -/
theorem Field.bit_not_fixed_reserved (f : Field) : ¬ (23 ≤ f.bit ∨ f.bit = 18 ∨ f.bit = 17 ∨ f.bit = 6) := by
  cases f <;> decide

/-- Rule R21 names a field at every position but bits 63:23, 18:17 and 6. -/
theorem Field.exists_bit_or_fixed_reserved (b : Nat) :
    (23 ≤ b ∨ b = 18 ∨ b = 17 ∨ b = 6) ∨ ∃ f : Field, f.bit = b := by
  have named : ∀ b < 23, (b = 18 ∨ b = 17 ∨ b = 6) ∨ b ∈ allFields.map Field.bit := by decide
  rcases Nat.lt_or_ge b 23 with hlow | hhigh
  · rcases named b hlow with hgap | hmem
    · exact .inl (.inr hgap)
    · obtain ⟨f, _, hf⟩ := List.mem_map.mp hmem
      exact .inr ⟨f, hf⟩
  · exact .inl (.inl hhigh)

/-- A bit of `RES0_MASK` is set exactly where no field of the implementation stands (rules R22, R47). -/
theorem res0Mask_getLsbD (c : Config) {b : Nat} (hb : b < 64) :
    (res0Mask c).getLsbD b = true ↔ ∀ f : Field, f.bit = b → f.existsIn c = false := by
  have hnot : (res0Mask c).getLsbD b = true ↔ ¬ (fieldMask c).getLsbD b = true := by simp [res0Mask, hb]
  rw [hnot, fieldMask_getLsbD]
  constructor
  · intro hnone f hf
    exact Bool.eq_false_iff.mpr fun hexists => hnone ⟨f, hexists, hf⟩
  · rintro habsent ⟨f, hexists, hf⟩
    simp [habsent f hf] at hexists

/-- Settles O36: a position is a fixed reserved one or carries exactly one named field, which is there or not. -/
theorem reservedPositions : Obligations.ReservedPositions := by
  intro c b hb
  have hfree : ∀ f : Field, f.bit = b → ¬ (23 ≤ b ∨ b = 18 ∨ b = 17 ∨ b = 6) := by
    rintro f rfl
    exact f.bit_not_fixed_reserved
  refine ⟨?_, hfree, rfl⟩
  rw [res0Mask_getLsbD c hb]
  constructor
  · intro habsent
    exact (Field.exists_bit_or_fixed_reserved b).imp_right fun ⟨f, hf⟩ => ⟨f, hf, habsent f hf⟩
  · rintro (hfixed | ⟨g, hg, hgabsent⟩) f hf
    · exact absurd hfixed (hfree f hf)
    · rwa [Field.bit_injective (hf.trans hg.symm)]

end Sys2Proof.Machine
end

section
/-! The absent register: both accessors raise what their shared decision raises, and that is UNDEFINED (rule R112). -/

namespace Sys2Proof.Machine

/-- Where the decision of the outcome table raises, the access faults so, whichever register and direction it names
(rules R110, R111). -/
theorem exec_of_accessRoute_raises (i : Instr) {s : State} {f : Fault} (h : accessRoute s.cfg s.inputs = .raises f) :
    exec i s = .fault f := by
  cases i with
  | mrs t => simp only [exec, execMrs, h, raise]
  | msr t => simp only [exec, execMsr, h, raise]

/-- Settles O14: without FEAT_FGT2 the shared decision raises UNDEFINED before it reads any input. Which of the two words
the instruction comes from does not matter, because every instruction of the model is one of the two accessors. -/
theorem absentRegisterIsUndefined : Obligations.AbsentRegisterIsUndefined := by
  intro _ s i habsent _
  exact exec_of_accessRoute_raises i (accessRoute_absent habsent)

end Sys2Proof.Machine
end

section
/-! The two classes of trap condition, and a write of a governed register outside the event-counter families, case by
case (41_trap_controls.md sections 1, 3 and 5). -/

namespace Sys2Proof.Machine

/-! ### The classes of rule R132 -/

/-- The ten class `EL1_ONLY` fields, by bit (rule R132). -/
theorem Field.trapClass_el1Only_iff (f : Field) :
    f.trapClass = .el1Only ↔ f.bit ∈ [20, 19, 16, 15, 12, 7, 5, 4, 1, 0] := by
  cases f <;> decide

/-- The ten class `EL1_EL0` fields, by bit (rule R132). -/
theorem Field.trapClass_el1AndEl0_iff (f : Field) :
    f.trapClass = .el1AndEl0 ↔ f.bit ∈ [22, 21, 14, 13, 11, 10, 9, 8, 3, 2] := by
  cases f <;> decide

/-- The governed registers of the class `EL1_ONLY` are the governed `_EL1` registers without TRBMPAM_EL1, which bit 22
governs with the other class (rules R132, R136). -/
theorem trapClass_el1Only_iff_of_governing {r : NamedReg} {f : Field} (hgov : governingField r = some f) :
    f.trapClass = .el1Only ↔ r ∈ [NamedReg.trcitecrEl1, .pmsdsfrEl1, .spmscrEl1, .spmaccessrEl1, .spmintenclrEl1,
      .spmintensetEl1, .pmsscrEl1, .mdselrEl1, .pmuacrEl1, .pmiarEl1, .pmecrEl1] := by
  cases r <;> cases hgov <;> simp [Field.trapClass]

/-- Settles O24: the class of a field by its bit, the condition of each class as the laws of the trap function give it,
and the class of each governed register. -/
theorem trapConditionsOfTheClasses : Obligations.TrapConditionsOfTheClasses :=
  ⟨Field.trapClass_el1Only_iff, Field.trapClass_el1AndEl0_iff, fun _ _ => trapCond_el1Only,
    fun _ _ => trapCond_el1AndEl0, fun _ _ => trapClass_el1Only_iff_of_governing⟩

/-! ### The `F0` flag -/

/-- Without `FEAT_FGT2` no `F0` field ignores a write, whichever register it belongs to (rules R152, R153). -/
theorem f0IgnoresThisWrite_of_feature_absent {s : State} (habsent : s.cfg.featFGT2 = false) (r : NamedReg) :
    f0IgnoresThisWrite s r = false := by
  have hcond : ∀ f, f0Cond s f = false := fun f => by simp [f0Cond, habsent]
  cases r <;> simp [f0IgnoresThisWrite, hcond]

/-- PMZR_EL0 is the only governed register with an affected `F0` field: the six of bit 3 are not governed (rules R152,
R153). -/
theorem f0IgnoresThisWrite_of_governed {r : NamedReg} {f : Field} (s : State) (hgov : governingField r = some f)
    (hne : r ≠ .pmzrEl0) : f0IgnoresThisWrite s r = false := by
  cases r <;> cases hgov
  case pmzrEl0 => exact absurd rfl hne
  all_goals rfl

/-- `F0IgnoresThisWrite` for PMZR_EL0 (rule R153). -/
theorem f0IgnoresThisWrite_pmzrEl0_iff (s : State) :
    f0IgnoresThisWrite s .pmzrEl0 = true ↔
      (s.inputs.el = .el1 ∨ s.inputs.el = .el0) ∧ s.inputs.el2Enabled = true ∧ ¬ E2hTgeBothSet s ∧
        ActsAsZero s 2 ∧ s.cfg.featFGT2 = true ∧ s.cfg.featPMUv3ICNTR = true := by
  rw [f0IgnoresThisWrite, Bool.and_eq_true, atEl1OrEl0_iff, f0Cond_iff]
  rfl

/-- No register of a class `EL1_ONLY` field has an affected `F0` field. -/
theorem f0IgnoresThisWrite_of_el1Only {r : NamedReg} {f : Field} (s : State) (hgov : governingField r = some f)
    (hclass : f.trapClass = .el1Only) : f0IgnoresThisWrite s r = false := by
  refine f0IgnoresThisWrite_of_governed s hgov ?_
  rintro rfl
  cases hgov
  contradiction

/-! ### A write of a governed register -/

/-- Where the governing field does not exist, with or without `FEAT_FGT2`, the write is not trapped (rules R135, R157). -/
theorem fgt2WriteCheck_of_field_absent {s : State} {r : NamedReg} {f : Field} (hgov : governingField r = some f)
    (habsent : ¬ (s.cfg.featFGT2 = true ∧ f.existsIn s.cfg = true)) :
    fgt2WriteCheck s r = .notTrappedHere (f0IgnoresThisWrite s r) := by
  by_cases hfgt : s.cfg.featFGT2 = true
  · refine fgt2WriteCheck_no_field hfgt fun g hg => ?_
    cases hgov.symm.trans hg
    exact Bool.eq_false_iff.mpr fun hexists => habsent ⟨hfgt, hexists⟩
  · have hfgt' : s.cfg.featFGT2 = false := Bool.eq_false_iff.mpr hfgt
    simp [fgt2WriteCheck, hfgt', f0IgnoresThisWrite_of_feature_absent hfgt']

/-- An existing field decides after the oracle, and by its condition alone, where no event counter is missing (rule R176). -/
theorem governedCheck_of_counter_present {s : State} {r : NamedReg} (f : Field) (hcounter : counterMissing s r = false) :
    (∀ e, s.inputs.higherPriority = some e → governedCheck s r f = .raises (.other e)) ∧
    (s.inputs.higherPriority = none →
      (trapCond s f = true → governedCheck s r f = .raises (.systemAccessTrap .el2 0x18#6)) ∧
      (¬ trapCond s f = true → governedCheck s r f = .notTrappedHere (f0IgnoresThisWrite s r))) := by
  refine ⟨fun e he => ?_, fun hnone => ⟨fun htrap => ?_, fun hno => ?_⟩⟩
  · simp [governedCheck, hcounter, he]
  · simp [governedCheck, hcounter, hnone, htrap, trapFault, trapEc]
  · simp [governedCheck, hcounter, hnone, hno]

/-- Every arm of the pseudocode for a write of a governed register of no missing event counter (rules R135, R157, R176). -/
theorem fgt2WriteCheck_arms_of_governed {s : State} {r : NamedReg} {f : Field} {cond : Prop}
    (hgov : governingField r = some f) (hcounter : counterMissing s r = false) (hcond : trapCond s f = true ↔ cond) :
    (¬ (s.cfg.featFGT2 = true ∧ f.existsIn s.cfg = true) →
      fgt2WriteCheck s r = .notTrappedHere (f0IgnoresThisWrite s r)) ∧
    (s.cfg.featFGT2 = true → f.existsIn s.cfg = true →
      (∀ e, s.inputs.higherPriority = some e → fgt2WriteCheck s r = .raises (.other e)) ∧
      (s.inputs.higherPriority = none →
        (cond → fgt2WriteCheck s r = .raises (.systemAccessTrap .el2 0x18#6)) ∧
        (¬ cond → fgt2WriteCheck s r = .notTrappedHere (f0IgnoresThisWrite s r)))) := by
  refine ⟨fgt2WriteCheck_of_field_absent hgov, fun hfgt hexists => ?_⟩
  rw [← hcond, fgt2WriteCheck_governed hfgt hgov hexists]
  exact governedCheck_of_counter_present f hcounter

/-! ### The registers by field -/

/-- The rows of the class `EL1_ONLY`: each register's field has the row's bit and condition of existence. -/
theorem el1Only_row_field {s : State} {r : NamedReg} {b : Nat} {ex : Bool}
    (hrow : (r, b, ex) ∈
      [(NamedReg.trcitecrEl1, 20, s.cfg.featITE), (.pmsdsfrEl1, 19, s.cfg.featSPEFDS),
       (.spmscrEl1, 16, s.cfg.featSPMU), (.spmaccessrEl1, 15, s.cfg.featSPMU),
       (.spmintenclrEl1, 12, s.cfg.featSPMU), (.spmintensetEl1, 12, s.cfg.featSPMU),
       (.pmsscrEl1, 7, s.cfg.featPMUv3SS),
       (.mdselrEl1, 5, s.cfg.featDebugv8p9 && s.cfg.nmdselrFieldImplemented),
       (.pmuacrEl1, 4, s.cfg.featPMUv3p9), (.pmiarEl1, 1, s.cfg.featSEBEP),
       (.pmecrEl1, 0, s.cfg.featEBEP || s.cfg.featPMUv3SS)]) :
    ∃ f, governingField r = some f ∧ f.bit = b ∧ f.existsIn s.cfg = ex ∧ f.trapClass = .el1Only ∧
      counterMissing s r = false := by
  simp only [List.mem_cons, List.not_mem_nil, or_false, Prod.mk.injEq] at hrow
  obtain h | h | h | h | h | h | h | h | h | h | h := hrow
  all_goals
    obtain ⟨rfl, rfl, rfl⟩ := h
    exact ⟨_, rfl, rfl, rfl, rfl, rfl⟩

/-- The rows of the class `EL1_EL0` that R137, R142, R143, R145, R146 and R153 give, in the same way. -/
theorem el1AndEl0_row_field {s : State} {r : NamedReg} {b : Nat} {ex : Bool}
    (hrow : (r, b, ex) ∈
      [(NamedReg.pmzrEl0, 21, s.cfg.featPMUv3p9), (.spmcrEl0, 14, s.cfg.featSPMU),
       (.spmovslrEl0, 13, s.cfg.featSPMU), (.spmovsetEl0, 13, s.cfg.featSPMU),
       (.spmcntenclrEl0, 11, s.cfg.featSPMU), (.spmcntensetEl0, 11, s.cfg.featSPMU),
       (.spmselrEl0, 10, s.cfg.featSPMU), (.pmicntrEl0, 2, s.cfg.featPMUv3ICNTR)]) :
    ∃ f, governingField r = some f ∧ f.bit = b ∧ f.existsIn s.cfg = ex ∧ f.trapClass = .el1AndEl0 ∧
      counterMissing s r = false := by
  simp only [List.mem_cons, List.not_mem_nil, or_false, Prod.mk.injEq] at hrow
  obtain h | h | h | h | h | h | h | h := hrow
  all_goals
    obtain ⟨rfl, rfl, rfl⟩ := h
    exact ⟨_, rfl, rfl, rfl, rfl, rfl⟩

/-- Settles O26: the field of each row decides by the `EL1_ONLY` condition, and none of the registers has an affected
`F0` field. -/
theorem el1OnlyFieldWrites : Obligations.El1OnlyFieldWrites := by
  intro s r b ex hrow
  obtain ⟨f, hgov, rfl, rfl, hclass, hcounter⟩ := el1Only_row_field hrow
  have harms := fgt2WriteCheck_arms_of_governed hgov hcounter (trapCond_el1Only hclass)
  rwa [f0IgnoresThisWrite_of_el1Only s hgov hclass] at harms

/-- Settles O27: the field of each row decides by the `EL1_EL0` condition, and the flag asked for is the model's own. -/
theorem el1AndEl0FieldWrites : Obligations.El1AndEl0FieldWrites := by
  intro s r b ex f0 hrow hf0
  obtain ⟨f, hgov, rfl, rfl, hclass, hcounter⟩ := el1AndEl0_row_field hrow
  have hflag : f0 = f0IgnoresThisWrite s r := by
    rw [Bool.eq_iff_iff, hf0]
    by_cases hr : r = .pmzrEl0
    · simp only [hr, f0IgnoresThisWrite_pmzrEl0_iff, true_and]
    · simp [hr, f0IgnoresThisWrite_of_governed s hgov hr]
  rw [hflag]
  exact fgt2WriteCheck_arms_of_governed hgov hcounter (trapCond_el1AndEl0 hclass)

end Sys2Proof.Machine
end

section
/-! The encoding: the decoder undoes the encoder, and every word that is no encoding is refused (rules R92 to R96). -/

namespace Sys2Proof

/-! ### One word -/

/-- The encoder's field layout as the match of the row MRS with `Rt` in the low five bits (rules R92, R93). -/
theorem encodeWord_mrs (t : RegNum) : encodeWord (.mrs t) = mrsMatch ||| t.setWidth 32 := by
  revert t
  decide

/-- The encoder's field layout as the match of the row MSR with `Rt` in the low five bits (rules R92, R93). -/
theorem encodeWord_msr (t : RegNum) : encodeWord (.msr t) = msrMatch ||| t.setWidth 32 := by
  revert t
  decide

/-- The encoding of either instruction decodes to it (rules R92, R96). -/
theorem decodeWord_encodeWord (i : Instr) : decodeWord (encodeWord i) = .ok i := by
  cases i with
  | mrs t => exact Laws.EncodedWordDecodes.mrs t
  | msr t => exact Laws.EncodedWordDecodes.msr t

/-- A word is its bits under the mask of rule R93 together with its field `Rt` (rule R94). -/
theorem masked_or_rtField (w : InstrWord) : (w &&& accessorMask) ||| (rtField w).setWidth 32 = w := by
  apply BitVec.eq_of_getLsbD_eq
  intro i hi
  simp only [accessorMask, rtField, BitVec.getLsbD_or, BitVec.getLsbD_and, BitVec.getLsbD_setWidth,
    BitVec.getLsbD_extractLsb']
  interval_cases i <;> simp

/-- What decodes to an instruction is that instruction's encoding: the mask and the field `Rt` leave no bit free. -/
theorem eq_encodeWord_of_decodeWord {w : InstrWord} {i : Instr} (h : decodeWord w = .ok i) : w = encodeWord i := by
  unfold decodeWord at h
  split at h
  next hmrs =>
    cases h
    rw [encodeWord_mrs, ← hmrs, masked_or_rtField]
  next =>
    split at h
    next hmsr =>
      cases h
      rw [encodeWord_msr, ← hmsr, masked_or_rtField]
    next => cases h

theorem decodeWord_eq_ok_iff (w : InstrWord) (i : Instr) : decodeWord w = .ok i ↔ w = encodeWord i :=
  ⟨eq_encodeWord_of_decodeWord, fun h => h ▸ decodeWord_encodeWord i⟩

/-- The decoder's only answer beside an instruction is the refusal under the word's own name (rule R96). -/
theorem decodeWord_error_name {w : InstrWord} {e : DecodeError} (h : decodeWord w = .error e) :
    e = .notAnAccessor w := by
  unfold decodeWord at h
  split at h
  next => cases h
  next =>
    split at h
    next => cases h
    next => cases h; rfl

theorem decodeWord_eq_error_iff (w : InstrWord) :
    decodeWord w = .error (.notAnAccessor w) ↔ ∀ i : Instr, w ≠ encodeWord i := by
  constructor
  · intro h i hw
    rw [(decodeWord_eq_ok_iff w i).mpr hw] at h
    cases h
  · intro h
    cases hd : decodeWord w with
    | ok i => exact absurd (eq_encodeWord_of_decodeWord hd) (h i)
    | error e => rw [decodeWord_error_name hd]

/-- Settles O3: the two constants, decode exactly on the encodings, and refusal by name exactly elsewhere. -/
theorem decodedWordIsTheEncoding : Obligations.DecodedWordIsTheEncoding :=
  ⟨fun t => ⟨encodeWord_mrs t, encodeWord_msr t⟩, decodeWord_eq_ok_iff, fun w => (decodeWord_eq_error_iff w).symm⟩

/-! ### Bytes -/

/-- Decoding bytes is decoding the word of the first four (rules R90, R96). -/
theorem decode_of_decodeWord_ok {b0 b1 b2 b3 : Byte} {i : Instr} (rest : List Byte)
    (h : decodeWord (wordOfBytes b0 b1 b2 b3) = .ok i) : decode (b0 :: b1 :: b2 :: b3 :: rest) = .ok (i, rest) := by
  simp only [decode, h]

theorem decode_of_decodeWord_error {b0 b1 b2 b3 : Byte} {e : DecodeError} (rest : List Byte)
    (h : decodeWord (wordOfBytes b0 b1 b2 b3) = .error e) : decode (b0 :: b1 :: b2 :: b3 :: rest) = .error e := by
  simp only [decode, h]

/-- Settles O2: the encoder's four bytes are the word again, and that word decodes to the instruction. -/
theorem decodeOfEncodeIsIdentity : Obligations.DecodeOfEncodeIsIdentity := by
  intro i rest
  refine decode_of_decodeWord_ok rest ?_
  rw [wordOfBytes_byteOfWord, decodeWord_encodeWord]

/-- Settles O1: each word is the encoding of its instruction, and the last lacks bit 5, which both matches set. -/
theorem writtenOutWordsDecode : Obligations.WrittenOutWordsDecode :=
  ⟨decodeOfEncodeIsIdentity (.mrs 0) [], decodeOfEncodeIsIdentity (.mrs 31) [], decodeOfEncodeIsIdentity (.msr 0) [],
    decodeOfEncodeIsIdentity (.msr 31) [], decode_of_decodeWord_error [] rfl⟩

end Sys2Proof
end

section
/-! The step: what a fetch finds at the pc, and the outcome of what it found (rules R58, R81, R174). -/

namespace Sys2Proof.Machine

/-! ### The fetch -/

/-- A fetch from an aligned pc with a slot reads that slot (rules R58, R81). -/
theorem fetch_of_slot {s : State} {v : Slot} (hpc : pcAligned s.pc = true)
    (hslot : slotAt s.program s.pc.toNat = some v) : fetch s = readSlot v := by
  simp only [fetch, hpc, hslot, if_true]

theorem readSlot_code_of_decode_ok {b0 b1 b2 b3 : Byte} {i : Instr} {rest : List Byte}
    (h : decode [b0, b1, b2, b3] = .ok (i, rest)) : readSlot (.code b0 b1 b2 b3) = .accessor i := by
  simp only [readSlot, h]

theorem readSlot_code_of_decode_error {b0 b1 b2 b3 : Byte} {e : DecodeError}
    (h : decode [b0, b1, b2, b3] = .error e) : readSlot (.code b0 b1 b2 b3) = .nothing (.undecodable e) := by
  simp only [readSlot, h]

/-- The slot of an encoded word is read as the instruction. -/
theorem readSlot_codeSlot_encodeWord (i : Instr) : readSlot (codeSlot (encodeWord i)) = .accessor i :=
  readSlot_code_of_decode_ok (decodeOfEncodeIsIdentity i [])

/-- An opcode-table word of 32 bits is the word itself. -/
theorem tableWord_toNat (w : InstrWord) : tableWord 32 w.toNat = w := by
  simp [tableWord, Nat.mod_eq_of_lt w.isLt]

/-- Settles O7: at an aligned pc the word goes where the pc points, the pc itself stays, and no other slot moves. -/
theorem placedWordIsFetched : Obligations.PlacedWordIsFetched := by
  intro s i hpc t
  have hplaced : t = { s with program := setSlot s.program s.pc.toNat (codeSlot (encodeWord i)) } := by
    simp only [t, State.withFetchWord, alignPc_of_aligned hpc, tableWord_toNat]
  refine ⟨?_, by rw [hplaced], fun a ha => ?_⟩
  · rw [fetch_of_slot (v := codeSlot (encodeWord i)), readSlot_codeSlot_encodeWord]
    · rw [hplaced]
      exact hpc
    · rw [hplaced]
      exact slotAt_setSlot_same _ _ _
  · rw [hplaced]
    exact slotAt_setSlot_other _ _ ha

/-! ### Changing the next state of an outcome -/

/-- The outcome with its next state, where there is one, changed by `g`. -/
def mapNext (g : State → State) : Result → Result
  | .next s => .next (g s)
  | .fault f => .fault f
  | .refused r => .refused r

/-- The step's own last act is such a change. -/
theorem thenTakeInputs_eq_mapNext (o : Result) : thenTakeInputs o = mapNext State.takeInputs o := by
  cases o <;> rfl

/-- What the change does to each of the three outcomes. -/
theorem outcomes_of_eq_mapNext {g : State → State} {o o' : Result} (h : o' = mapNext g o) :
    (∀ t, o = .next t → o' = .next (g t)) ∧ (∀ f, o = .fault f → o' = .fault f) ∧
      (∀ r, o = .refused r → o' = .refused r) := by
  refine ⟨?_, ?_, ?_⟩ <;> rintro _ rfl <;> exact h

/-! ### The step at each kind of slot -/

/-- A step at bytes that decode (rule R174). -/
theorem step_of_decode {s : State} {b0 b1 b2 b3 : Byte} {i : Instr} {rest : List Byte} (hpc : pcAligned s.pc = true)
    (hslot : slotAt s.program s.pc.toNat = some (.code b0 b1 b2 b3)) (hdec : decode [b0, b1, b2, b3] = .ok (i, rest)) :
    step s = mapNext State.takeInputs (exec i s) := by
  rw [step_of_accessor, thenTakeInputs_eq_mapNext]
  rw [fetch_of_slot hpc hslot, readSlot_code_of_decode_ok hdec]

theorem State.takeInputs_of_schedule_nil {s : State} (h : s.schedule = []) : s.takeInputs = s := by
  simp only [State.takeInputs, h]

theorem State.takeInputs_of_schedule_cons {s : State} {e : Inputs} {es : List Inputs} (h : s.schedule = e :: es) :
    s.takeInputs = { s with inputs := e, schedule := es } := by
  simp only [State.takeInputs, h]

/-- Settles O4: the step passes the instruction's outcome on, and a completed one takes the next scheduled inputs. -/
theorem stepRunsTheDecodedInstruction : Obligations.StepRunsTheDecodedInstruction := by
  intro s b0 b1 b2 b3 i rest hpc hslot hdec
  obtain ⟨hnext, hfault, hrefused⟩ := outcomes_of_eq_mapNext (step_of_decode hpc hslot hdec)
  refine ⟨fun t ht => ⟨fun hnil => ?_, fun e es hcons => ?_⟩, hfault, hrefused⟩
  · rw [hnext t ht, State.takeInputs_of_schedule_nil hnil]
  · rw [hnext t ht, State.takeInputs_of_schedule_cons hcons]

/-- Settles O5: such bytes are no encoding, so their word is refused under its own name. -/
theorem stepRefusesEveryOtherWord : Obligations.StepRefusesEveryOtherWord := by
  intro s b0 b1 b2 b3 hpc hslot hmrs hmsr
  have hword : decodeWord (wordOfBytes b0 b1 b2 b3) = .error (.notAnAccessor (wordOfBytes b0 b1 b2 b3)) := by
    rw [decodeWord_eq_error_iff]
    rintro (t | t)
    · rw [encodeWord_mrs]
      exact hmrs t
    · rw [encodeWord_msr]
      exact hmsr t
  have hfetch : fetch s = .nothing (.undecodable (.notAnAccessor (wordOfBytes b0 b1 b2 b3))) := by
    rw [fetch_of_slot hpc hslot, readSlot_code_of_decode_error (decode_of_decodeWord_error [] hword)]
  simp only [step, hfetch]
  rfl

/-! ### Accesses identified by name -/

theorem execNamed_read {a : NamedAccess} (s : State) (h : a.dir = .read) :
    execNamed a s = .refused .namedReadNotGoverned := by
  simp only [execNamed, h]

theorem execNamed_write_halted {a : NamedAccess} {s : State} (h : a.dir = .write) (hh : s.inputs.halted = true) :
    execNamed a s = .refused .namedWriteInDebugState := by
  simp only [execNamed, h, hh, if_true]

/-- A write that the trap function stops ends in its fault (rule R157). -/
theorem execNamed_write_of_raises {a : NamedAccess} {s : State} {f : Fault} (h : a.dir = .write)
    (hh : s.inputs.halted = false) (hc : fgt2WriteCheck s a.reg = .raises f) : execNamed a s = .fault f := by
  simp [execNamed, h, hh, hc, raise]

/-- A write that the trap function lets pass is refused: what it then does is in no source (rule R135). -/
theorem execNamed_write_of_notTrapped {a : NamedAccess} {s : State} {b : Bool} (h : a.dir = .write)
    (hh : s.inputs.halted = false) (hc : fgt2WriteCheck s a.reg = .notTrappedHere b) :
    execNamed a s = .refused (.notTrappedHere b) := by
  simp [execNamed, h, hh, hc]

/-- No access identified by name completes. -/
theorem execNamed_ne_next (a : NamedAccess) (s s' : State) : execNamed a s ≠ .next s' := by
  cases hd : a.dir with
  | read => simp [execNamed_read s hd]
  | write =>
    cases hh : s.inputs.halted with
    | true => simp [execNamed_write_halted hd hh]
    | false =>
      cases hc : fgt2WriteCheck s a.reg with
      | raises f => simp [execNamed_write_of_raises hd hh hc]
      | notTrappedHere b => simp [execNamed_write_of_notTrapped hd hh hc]

/-- Settles O6: a named access completes nowhere, so the step takes no inputs after it. -/
theorem stepRunsTheNamedAccess : Obligations.StepRunsTheNamedAccess := by
  intro s a hpc hslot
  have hfetch : fetch s = .named a := fetch_of_slot hpc hslot
  have hstep : step s = thenTakeInputs (execNamed a s) := by simp only [step, hfetch]
  rw [hstep]
  cases he : execNamed a s with
  | next s' => exact absurd he (execNamed_ne_next a s s')
  | fault f => rfl
  | refused r => rfl

/-- Settles O35: a write outside Debug state does what the trap function says, and every other access is refused. -/
theorem namedAccessesStopByName : Obligations.NamedAccessesStopByName := by
  intro a s
  refine ⟨execNamed_ne_next a s, execNamed_read s, execNamed_write_halted, fun hd hh => ?_⟩
  cases hc : fgt2WriteCheck s a.reg with
  | raises f => simp [execNamed_write_of_raises hd hh hc]
  | notTrappedHere b => simp [execNamed_write_of_notTrapped hd hh hc]

end Sys2Proof.Machine
end

section
/-! The accessors row by row of the outcome table: what each completes with, and what it raises (rules R110 to R121). -/

namespace Sys2Proof.Machine

/-! ### Reads of the general registers after each update -/

theorem State.readX_writeX_same (s : State) {t : RegNum} (v : Word64) (h : t ≠ 31#5) : (s.writeX t v).readX t = v :=
  regRead_regWrite_same s.x v h

theorem State.readX_writeX_other (s : State) {t u : RegNum} (v : Word64) (h : u ≠ t) :
    (s.writeX t v).readX u = s.readX u :=
  regRead_regWrite_other s.x v h

@[simp] theorem State.readX_zero_register (s : State) : s.readX 31#5 = 0#64 :=
  regRead_zero_register s.x

@[simp] theorem State.readX_advancePc (s : State) (t : RegNum) : s.advancePc.readX t = s.readX t := rfl

@[simp] theorem State.readRegister_eq (s : State) : s.readRegister = s.hdfgwtr2 := rfl

/-- Everything a write of `X[t]` and the pc do to the state, the zero register among them. -/
theorem State.writeX_advancePc_frame (s : State) (t : RegNum) (v : Word64) :
    (s.writeX t v).advancePc.readX 31#5 = 0#64 ∧
    (∀ u, u ≠ t → (s.writeX t v).advancePc.readX u = s.readX u) ∧
    (t = 31#5 → (s.writeX t v).advancePc.x = s.x) ∧
    (s.writeX t v).advancePc = { s with x := (s.writeX t v).advancePc.x, pc := s.pc + 4 } := by
  refine ⟨State.readX_zero_register _, fun u hu => State.readX_writeX_other s v hu, ?_, rfl⟩
  rintro rfl
  exact regWrite_zero_register s.x v

/-! ### The accessors by the decision they share -/

section Routes

variable {s : State}

theorem exec_mrs_of_register (t : RegNum) (h : accessRoute s.cfg s.inputs = .register) :
    exec (.mrs t) s = complete (s.writeX t s.hdfgwtr2) := by
  simp only [exec, execMrs, h, State.readRegister_eq]

theorem exec_mrs_of_memory (t : RegNum) (h : accessRoute s.cfg s.inputs = .memory) :
    exec (.mrs t) s = nvMemAccess s (s.writeX t s.nvMemRead) := by
  simp only [exec, execMrs, h]

theorem exec_msr_of_register (t : RegNum) (h : accessRoute s.cfg s.inputs = .register) :
    exec (.msr t) s = complete (s.writeRegister (s.readX t)) := by
  simp only [exec, execMsr, h]

theorem exec_msr_of_memory (t : RegNum) (h : accessRoute s.cfg s.inputs = .memory) :
    exec (.msr t) s = nvMemAccess s (s.nvMemWrite (s.readX t)) := by
  simp only [exec, execMsr, h]

/-- Either accessor of the register completes. -/
theorem exec_eq_complete (i : Instr) (h : accessRoute s.cfg s.inputs = .register) :
    ∃ done, exec i s = complete done := by
  cases i with
  | mrs t => exact ⟨_, exec_mrs_of_register t h⟩
  | msr t => exact ⟨_, exec_msr_of_register t h⟩

/-- Either accessor of the memory copy is one `NVMem` access. -/
theorem exec_eq_nvMemAccess (i : Instr) (h : accessRoute s.cfg s.inputs = .memory) :
    ∃ done, exec i s = nvMemAccess s done := by
  cases i with
  | mrs t => exact ⟨_, exec_mrs_of_memory t h⟩
  | msr t => exact ⟨_, exec_msr_of_memory t h⟩

end Routes

/-! ### Where the accessors complete -/

theorem exec_mrs_register (t : RegNum) {s : State} (hp : s.cfg.featFGT2 = true) (h : RegisterRow s) :
    exec (.mrs t) s = .next (s.writeX t s.hdfgwtr2).advancePc :=
  exec_mrs_of_register t (accessRoute_register hp h)

theorem exec_msr_register (t : RegNum) {s : State} (hp : s.cfg.featFGT2 = true) (h : RegisterRow s) :
    exec (.msr t) s = .next (s.writeRegister (s.readX t)).advancePc :=
  exec_msr_of_register t (accessRoute_register hp h)

theorem exec_mrs_memory (t : RegNum) {s : State} (hp : s.cfg.featFGT2 = true) (h : MemoryRow s)
    (ha : nvBaseAligned s.inputs.nvBase = true) (hf : s.inputs.nvMemFault = none) :
    exec (.mrs t) s = .next (s.writeX t s.nvMemRead).advancePc := by
  rw [exec_mrs_of_memory t (accessRoute_memory hp h), nvMemAccess_completes _ ha hf]

theorem exec_msr_memory (t : RegNum) {s : State} (hp : s.cfg.featFGT2 = true) (h : MemoryRow s)
    (ha : nvBaseAligned s.inputs.nvBase = true) (hf : s.inputs.nvMemFault = none) :
    exec (.msr t) s = .next (s.nvMemWrite (s.readX t)).advancePc := by
  rw [exec_msr_of_memory t (accessRoute_memory hp h), nvMemAccess_completes _ ha hf]

/-- Settles O8: the completed state is the register's value in `X[t]`, whose frame is that of any such write. -/
theorem mrsReadsTheRegister : Obligations.MrsReadsTheRegister := by
  intro t s hp hrow
  exact ⟨_, exec_mrs_register t hp hrow, State.readX_writeX_same s _, State.writeX_advancePc_frame s t _⟩

/-- Byte `k` of the memory copy is the value's byte of that lane (rule R73). -/
theorem byteOf_nvMemRead (s : State) {k : Nat} (hk : k < 8) :
    byteOf s.nvMemRead (lane s.cfg.nvmemBigEndian k) = readByte s.mem (s.nvAddr + k) := by
  rw [State.nvMemRead, byteOf_memRead8 _ _ _ (lane_lt _ hk), lane_lane _ hk]

/-- Settles O9: the value read is the memory copy's, byte by byte in its lanes. -/
theorem mrsReadsTheMemoryCopy : Obligations.MrsReadsTheMemoryCopy := by
  intro t s hp hrow ha hf
  refine ⟨_, exec_mrs_memory t hp hrow ha hf, fun ht k hk => ?_, State.writeX_advancePc_frame s t _⟩
  rw [State.readX_advancePc, State.readX_writeX_same s _ ht]
  exact byteOf_nvMemRead s hk

/-- What a write stores, bit by bit (rule R113). -/
theorem writeValue_getLsbD (c : Config) (v : Word64) (b : Nat) :
    (writeValue c v).getLsbD b = (v.getLsbD b && ((fieldMask c).getLsbD b || c.res0StorageMask.getLsbD b)) := by
  rw [writeValue_eq, storedMask, BitVec.getLsbD_and, BitVec.getLsbD_or]

/-- Settles O10: the register takes `WriteValue`, whose bits are those of the field mask and the storage mask. -/
theorem msrWritesTheRegister : Obligations.MsrWritesTheRegister := by
  intro t s hp hrow
  refine ⟨_, exec_msr_register t hp hrow, fun f hf => ?_, fun b hb => ?_, fun b hnofield hnostorage => ?_, rfl⟩
  · have hmask : (fieldMask s.cfg).getLsbD f.bit = true := (fieldMask_getLsbD s.cfg f.bit).mpr ⟨f, hf, rfl⟩
    simp [writeValue_getLsbD, hmask]
  · simp [writeValue_getLsbD, hb]
  · have hmask : (fieldMask s.cfg).getLsbD b = false := by
      rw [Bool.eq_false_iff, ne_eq, fieldMask_getLsbD]
      rintro ⟨f, hf, hbit⟩
      exact hnofield f hf hbit
    simp [writeValue_getLsbD, hmask, hnostorage]

/-- The bytes of the memory copy after `NVMem[0x1B0] <- v` are the value's, lane by lane (rule R73). -/
theorem readByte_nvMemWrite_inside (s : State) (v : Word64) {k : Nat} (hk : k < 8) :
    readByte (s.nvMemWrite v).mem (s.nvAddr + k) = byteOf v (lane s.cfg.nvmemBigEndian k) := by
  rw [State.nvMemWrite_mem, readByte_memWrite8, if_pos ⟨by omega, by omega⟩, Nat.add_sub_cancel_left]

theorem readByte_nvMemWrite_outside (s : State) (v : Word64) {a : Nat} (h : ¬ InMemoryCopy s a) :
    readByte (s.nvMemWrite v).mem a = readByte s.mem a := by
  rw [State.nvMemWrite_mem, readByte_memWrite8, if_neg h]

/-- Settles O11: the 8 bytes of the write are the value's lanes, and no other byte is touched. -/
theorem msrWritesTheMemoryCopy : Obligations.MsrWritesTheMemoryCopy := by
  intro t s hp hrow ha hf
  exact ⟨_, exec_msr_memory t hp hrow ha hf, fun k hk => readByte_nvMemWrite_inside s _ hk,
    fun a hout => readByte_nvMemWrite_outside s _ hout, rfl⟩

/-- Settles O16: the value 0 stores 0, and the zero register discards what it is given. -/
theorem zeroRegisterAccesses : Obligations.ZeroRegisterAccesses := by
  intro s hp hrow
  constructor
  · have hzero : writeValue s.cfg 0#64 = 0#64 := by simp [writeValue]
    rw [exec_msr_register _ hp hrow, State.readX_zero_register, State.writeRegister, hzero]
    rfl
  · rw [exec_mrs_register _ hp hrow, State.writeX, regWrite_zero_register]
    rfl

/-- Settles O18: the write leaves the row as it was, so the read reaches the place the write reached. -/
theorem readAfterWrite : Obligations.ReadAfterWrite := by
  intro a b s hp hb
  constructor
  · intro hrow
    refine ⟨_, _, exec_msr_register a hp hrow, exec_mrs_register b hp hrow, ?_⟩
    rw [State.readX_advancePc, State.readX_writeX_same _ _ hb]
    exact writeValue_eq s.cfg _
  · intro hrow ha hf
    refine ⟨_, _, exec_msr_memory a hp hrow ha hf, exec_mrs_memory b hp hrow ha hf, ?_⟩
    rw [State.readX_advancePc, State.readX_writeX_same _ _ hb]
    exact memRead8_memWrite8 _ s.mem s.nvAddr _

/-! ### Where the accessors raise or are refused -/

/-- Settles O12: the shared decision raises, or the oracle faults the `NVMem` access. -/
theorem accessorsRaiseByTheTable : Obligations.AccessorsRaiseByTheTable := by
  intro i s hp
  refine ⟨fun hrow => ?_, fun hrow => ?_, fun hrow => ?_, fun e hrow ha hf => ?_⟩
  · exact exec_of_accessRoute_raises i (accessRoute_undefined hp hrow)
  · exact exec_of_accessRoute_raises i (accessRoute_trapToEl2 hp hrow)
  · exact exec_of_accessRoute_raises i (accessRoute_trapToEl3 hp hrow)
  · obtain ⟨done, hexec⟩ := exec_eq_nvMemAccess i (accessRoute_memory hp hrow)
    simp [hexec, nvMemAccess, ha, hf, raise]

/-- The low twelve bits of an aligned base are clear, so no bit of the offset meets a bit of the base (rule R71). -/
theorem nvBase_and_nvOffset {base : Word64} (h : nvBaseAligned base = true) : base &&& nvOffset = 0#64 := by
  have hlow : base.extractLsb' 0 12 = 0#12 := by simpa [nvBaseAligned] using h
  apply BitVec.eq_of_getLsbD_eq
  intro i hi
  rw [BitVec.getLsbD_and]
  by_cases hi12 : i < 12
  · have hbit : base.getLsbD i = false := by simpa [hi12] using congrArg (fun v => v.getLsbD i) hlow
    simp [hbit]
  · have hoff : nvOffset.getLsbD i = false := BitVec.getLsbD_of_ge (0x1B0#12) i (by omega)
    simp [hoff]

/-- Settles O19: with the low twelve bits of the base clear the sum is an OR, the offset is a multiple of 8, and a page
from the base lies inside the address space; a base with another low bit fails the check of rule R74. -/
theorem memoryCopyIsAligned : Obligations.MemoryCopyIsAligned := by
  constructor
  · intro s ha
    refine ⟨?_, ?_, nvAddr_fits ha⟩
    · rw [State.nvAddr, BitVec.add_eq_or_of_and_eq_zero _ _ (nvBase_and_nvOffset ha)]
      rfl
    · have hpage := (nvBaseAligned_iff _).mp ha
      rw [nvAddr_of_aligned ha]
      omega
  · intro i s hp hrow hbase
    obtain ⟨done, hexec⟩ := exec_eq_nvMemAccess i (accessRoute_memory hp hrow)
    have hmis : ¬ nvBaseAligned s.inputs.nvBase = true := by rwa [nvBaseAligned_iff]
    rw [hexec, nvMemAccess, if_neg hmis]

/-- From an aligned base no accessor is refused: its decision is one of the three of rule R110, and an `NVMem` access from
such a base is not refused. -/
theorem exec_ne_refused (i : Instr) {s : State} (ha : nvBaseAligned s.inputs.nvBase = true) (r : Refusal) :
    exec i s ≠ .refused r := by
  cases hroute : accessRoute s.cfg s.inputs with
  | register =>
    obtain ⟨done, hexec⟩ := exec_eq_complete i hroute
    simp [hexec, complete]
  | memory =>
    obtain ⟨done, hexec⟩ := exec_eq_nvMemAccess i hroute
    rw [hexec]
    exact nvMemAccess_not_refused ha
  | raises f => simp [exec_of_accessRoute_raises i hroute]

/-- Settles O20: the step ends as the accessor ends, which is not refused. -/
theorem accessorStepsStayInSpec : Obligations.AccessorStepsStayInSpec := by
  intro s b0 b1 b2 b3 i rest hpc hslot hdec ha r hstep
  rw [step_of_decode hpc hslot hdec] at hstep
  cases he : exec i s with
  | next t => simp [he, mapNext] at hstep
  | fault f => simp [he, mapNext] at hstep
  | refused r' => exact exec_ne_refused i ha r' he

/-! ### The rows of the outcome table -/

/-- Where the rows send an access: the decision of rule R110 in the same state with the register implemented. -/
def rowRoute (s : State) : Route :=
  accessRoute { s.cfg with featFGT2 := true } s.inputs

/-- The same state with the register implemented, where every row holds that held before. -/
def State.withFgt2 (s : State) : State :=
  { s with cfg := { s.cfg with featFGT2 := true } }

theorem rowRoute_register {s : State} (h : RegisterRow s) : rowRoute s = .register :=
  accessRoute_register (s := s.withFgt2) rfl h

theorem rowRoute_memory {s : State} (h : MemoryRow s) : rowRoute s = .memory :=
  accessRoute_memory (s := s.withFgt2) rfl h

theorem rowRoute_trapToEl2 {s : State} (h : TrapToEl2Row s) : rowRoute s = .raises (trapFault .el2) :=
  accessRoute_trapToEl2 (s := s.withFgt2) rfl h

theorem rowRoute_trapToEl3 {s : State} (h : TrapToEl3Row s) : rowRoute s = .raises (trapFault .el3) :=
  accessRoute_trapToEl3 (s := s.withFgt2) rfl h

theorem rowRoute_undefined {s : State} (h : UndefinedRow s) : rowRoute s = .raises undefinedFault :=
  accessRoute_undefined (s := s.withFgt2) rfl h

/-- Every state is in a row of the outcome table. -/
theorem outcomeRow_exists (s : State) :
    RegisterRow s ∨ MemoryRow s ∨ TrapToEl2Row s ∨ TrapToEl3Row s ∨ UndefinedRow s := by
  cases hel : s.inputs.el with
  | el0 => exact .inr (.inr (.inr (.inr (.inl hel))))
  | el1 =>
    cases hen : s.inputs.el2Enabled with
    | false => exact .inr (.inr (.inr (.inr (.inr (.inl ⟨hel, .inl hen⟩)))))
    | true =>
      cases hnv : s.inputs.hcrNV with
      | false => exact .inr (.inr (.inr (.inr (.inr (.inl ⟨hel, .inr hnv⟩)))))
      | true =>
        cases hnv2 : s.inputs.hcrNV2 with
        | false => exact .inr (.inr (.inl ⟨hel, hen, hnv, hnv2⟩))
        | true => exact .inr (.inl ⟨hel, hen, hnv, hnv2⟩)
  | el2 =>
    cases h3 : s.cfg.haveEl3 with
    | false => exact .inl (.inr ⟨hel, .inl h3⟩)
    | true =>
      cases hfgt : s.inputs.scrFGTEn2 with
      | true => exact .inl (.inr ⟨hel, .inr hfgt⟩)
      | false =>
        cases hhalted : s.inputs.halted with
        | false => exact .inr (.inr (.inr (.inl ⟨hel, h3, hfgt, .inl hhalted⟩)))
        | true =>
          cases hsdd : s.inputs.edscrSDD with
          | false => exact .inr (.inr (.inr (.inl ⟨hel, h3, hfgt, .inr hsdd⟩)))
          | true => exact .inr (.inr (.inr (.inr (.inr (.inr ⟨hel, h3, hfgt, hhalted, hsdd⟩)))))
  | el3 => exact .inl (.inl hel)

/-- Settles O13: two rows at once would send one access to two places. -/
theorem outcomeRowsPartition : Obligations.OutcomeRowsPartition := by
  intro s
  refine ⟨outcomeRow_exists s, ?_, ?_, ?_, ?_⟩
  · rintro ⟨h, h' | h' | h' | h'⟩
    · cases (rowRoute_register h).symm.trans (rowRoute_memory h')
    · cases (rowRoute_register h).symm.trans (rowRoute_trapToEl2 h')
    · cases (rowRoute_register h).symm.trans (rowRoute_trapToEl3 h')
    · cases (rowRoute_register h).symm.trans (rowRoute_undefined h')
  · rintro ⟨h, h' | h' | h'⟩
    · cases (rowRoute_memory h).symm.trans (rowRoute_trapToEl2 h')
    · cases (rowRoute_memory h).symm.trans (rowRoute_trapToEl3 h')
    · cases (rowRoute_memory h).symm.trans (rowRoute_undefined h')
  · rintro ⟨h, h' | h'⟩
    · cases (rowRoute_trapToEl2 h).symm.trans (rowRoute_trapToEl3 h')
    · cases (rowRoute_trapToEl2 h).symm.trans (rowRoute_undefined h')
  · rintro ⟨h, h'⟩
    cases (rowRoute_trapToEl3 h).symm.trans (rowRoute_undefined h')

end Sys2Proof.Machine
end

section
/-! What every accessor and every step keeps: the frames, the invariant and the fixed parts of a run (rules R23, R24, R26,
R58, R118). -/

namespace Sys2Proof.Machine

/-! ### Everything an accessor can do where it completes -/

/-- The four ways an accessor completes: a read or a write, of the register or of the memory copy (rules R110, R111). -/
theorem exec_next {i : Instr} {s s' : State} (h : exec i s = .next s') :
    (∃ t, i = .mrs t ∧ RegisterRow s ∧ s' = (s.writeX t s.hdfgwtr2).advancePc) ∨
    (∃ t, i = .mrs t ∧ MemoryRow s ∧ s' = (s.writeX t s.nvMemRead).advancePc) ∨
    (∃ t, i = .msr t ∧ RegisterRow s ∧ s' = (s.writeRegister (s.readX t)).advancePc) ∨
    (∃ t, i = .msr t ∧ MemoryRow s ∧ nvBaseAligned s.inputs.nvBase = true ∧
      s' = (s.nvMemWrite (s.readX t)).advancePc) := by
  cases i with
  | mrs t =>
    obtain ⟨hroute, hs'⟩ | ⟨hroute, _, _, hs'⟩ := execMrs_next h
    · exact .inl ⟨t, rfl, (accessRoute_register_inv hroute).2, hs'⟩
    · exact .inr (.inl ⟨t, rfl, (accessRoute_memory_inv hroute).2, hs'⟩)
  | msr t =>
    obtain ⟨hroute, hs'⟩ | ⟨hroute, ha, _, hs'⟩ := execMsr_next h
    · exact .inr (.inr (.inl ⟨t, rfl, (accessRoute_register_inv hroute).2, hs'⟩))
    · exact .inr (.inr (.inr ⟨t, rfl, (accessRoute_memory_inv hroute).2, ha, hs'⟩))

/-- The register rows are at EL2 and EL3 only. -/
theorem RegisterRow.el_ne_el1 {s : State} (h : RegisterRow s) : s.inputs.el ≠ .el1 := by
  obtain h | ⟨h, _⟩ := h <;> simp [h]

theorem mrs_frame {t : RegNum} {s s' : State} (h : exec (.mrs t) s = .next s') :
    s' = { s with x := s'.x, pc := s'.pc } ∧ ∀ u, u ≠ t → s'.readX u = s.readX u := by
  obtain ⟨_, hi, _, rfl⟩ | ⟨_, hi, _, rfl⟩ | ⟨_, hi, _⟩ | ⟨_, hi, _⟩ := exec_next h
  · cases hi
    exact ⟨rfl, fun u hu => State.readX_writeX_other s _ hu⟩
  · cases hi
    exact ⟨rfl, fun u hu => State.readX_writeX_other s _ hu⟩
  · cases hi
  · cases hi

theorem msr_frame {t : RegNum} {s s' : State} (h : exec (.msr t) s = .next s') :
    s' = { s with hdfgwtr2 := s'.hdfgwtr2, mem := s'.mem, pc := s'.pc } ∧
    (s.inputs.el = .el1 → s'.hdfgwtr2 = s.hdfgwtr2) ∧ (s.inputs.el ≠ .el1 → s'.mem = s.mem) ∧
    ∀ a, ¬ InMemoryCopy s a → readByte s'.mem a = readByte s.mem a := by
  obtain ⟨_, hi, _⟩ | ⟨_, hi, _⟩ | ⟨_, hi, hrow, rfl⟩ | ⟨_, hi, hrow, _, rfl⟩ := exec_next h
  · cases hi
  · cases hi
  · exact ⟨rfl, fun hel => absurd hel hrow.el_ne_el1, fun _ => rfl, fun _ _ => rfl⟩
  · exact ⟨rfl, fun _ => rfl, fun hel => absurd hrow.1 hel, fun a ha => readByte_nvMemWrite_outside s _ ha⟩

/-- Settles O17: in all four ways an accessor completes, everything it does not write is the argument's by definition. -/
theorem accessorFrame : Obligations.AccessorFrame :=
  ⟨fun _ _ _ => mrs_frame, fun _ _ _ => msr_frame⟩

/-- Settles O21: of the four ways an accessor completes only the write in the register rows stores a register value. -/
theorem onlyMsrAtEl2OrEl3ChangesTheRegister : Obligations.OnlyMsrAtEl2OrEl3ChangesTheRegister := by
  intro s s' hstep hchanged
  obtain ⟨i, d, hfetch, hexec, rfl⟩ := step_next hstep
  rw [State.takeInputs_hdfgwtr2] at hchanged
  obtain ⟨t, rfl, _, rfl⟩ | ⟨t, rfl, _, rfl⟩ | ⟨t, rfl, hrow, rfl⟩ | ⟨t, rfl, _, _, rfl⟩ := exec_next hexec
  · exact absurd rfl hchanged
  · exact absurd rfl hchanged
  · exact ⟨hrow, t, hfetch⟩
  · exact absurd rfl hchanged

/-! ### The invariant -/

theorem Inv.advancePc {s : State} (h : Inv s) : Inv s.advancePc :=
  ⟨h.mem, h.reserved, pcAligned_add_four h.pc, h.program⟩

/-- A write of `X[t]` touches nothing the invariant speaks of. -/
theorem Inv.writeX {s : State} (h : Inv s) (t : RegNum) (v : Word64) : Inv (s.writeX t v) :=
  ⟨h.mem, h.reserved, h.pc, h.program⟩

/-- A write of the register stores no hardwired reserved bit (rule R113). -/
theorem Inv.writeRegister {s : State} (h : Inv s) (v : Word64) : Inv (s.writeRegister v) :=
  ⟨h.mem, writeValue_reserved s.cfg v, h.pc, h.program⟩

/-- A write of the memory copy lies inside the address space, where the base is aligned (rules R71, R74). -/
theorem Inv.nvMemWrite {s : State} (h : Inv s) (v : Word64) (ha : nvBaseAligned s.inputs.nvBase = true) :
    Inv (s.nvMemWrite v) :=
  ⟨memWrite8_wf _ v h.mem (nvAddr_fits ha), h.reserved, h.pc, h.program⟩

/-- The inputs and their schedule are nothing the invariant speaks of. -/
theorem Inv.takeInputs {s : State} (h : Inv s) : Inv s.takeInputs := by
  cases hs : s.schedule with
  | nil =>
    rw [State.takeInputs_of_schedule_nil hs]
    exact h
  | cons e es =>
    rw [State.takeInputs_of_schedule_cons hs]
    exact ⟨h.mem, h.reserved, h.pc, h.program⟩

/-- A Warm reset stores no hardwired reserved bit, whatever it draws (rule R49). -/
theorem Inv.warmReset {s : State} (h : Inv s) : Inv s.warmReset :=
  ⟨h.mem, warmResetValue_reserved s.cfg _, h.pc, h.program⟩

/-- Every completed accessor keeps the invariant. -/
theorem Inv.exec_next {i : Instr} {s s' : State} (h : Inv s) (hexec : exec i s = .next s') : Inv s' := by
  obtain ⟨t, _, _, rfl⟩ | ⟨t, _, _, rfl⟩ | ⟨t, _, _, rfl⟩ | ⟨t, _, _, ha, rfl⟩ := Machine.exec_next hexec
  · exact (h.writeX t _).advancePc
  · exact (h.writeX t _).advancePc
  · exact (h.writeRegister _).advancePc
  · exact (h.nvMemWrite _ ha).advancePc

/-- Settles O44: a step is a completed accessor and the next inputs, and both keep the invariant. -/
theorem everyStepKeepsTheInvariant : Obligations.EveryStepKeepsTheInvariant := by
  intro s s' hinv hstep
  obtain ⟨i, d, _, hexec, rfl⟩ := step_next hstep
  exact (hinv.exec_next hexec).takeInputs

/-- Settles O43: of what the invariant speaks of, a Warm reset changes the register alone. -/
theorem warmResetKeepsTheInvariant : Obligations.WarmResetKeepsTheInvariant :=
  fun _ hinv => hinv.warmReset

/-- The state that reset gives no value to meets the invariant: it is empty, and its register is 0. -/
theorem inv_beforeReset : Inv State.beforeReset :=
  ⟨by decide, by simp [ReservedBitsHold, State.beforeReset], by decide, by decide⟩

/-- Settles O42: reset is a Warm reset of a state that meets the invariant. -/
theorem invariantAtReset : Obligations.InvariantAtReset :=
  inv_beforeReset.warmReset

/-! ### Runs -/

/-- What no completed accessor touches, and the pc it leaves (rules R24, R81, R118). -/
theorem exec_next_fixed {i : Instr} {s s' : State} (h : exec i s = .next s') :
    s'.pc = s.pc + 4 ∧ s'.cfg = s.cfg ∧ s'.program = s.program ∧ s'.draws = s.draws := by
  obtain ⟨t, _, _, rfl⟩ | ⟨t, _, _, rfl⟩ | ⟨t, _, _, rfl⟩ | ⟨t, _, _, _, rfl⟩ := exec_next h <;>
    exact ⟨rfl, rfl, rfl, rfl⟩

theorem step_next_fixed {s s' : State} (h : step s = .next s') :
    s'.pc = s.pc + 4 ∧ s'.cfg = s.cfg ∧ s'.program = s.program ∧ s'.draws = s.draws := by
  obtain ⟨i, d, _, hexec, rfl⟩ := step_next h
  simpa using exec_next_fixed hexec

/-- `n` more steps of 4 after one are `n + 1` steps of 4. -/
theorem pc_add_four_mul_succ (pc : Word64) (n : Nat) :
    pc + 4 + 4 * BitVec.ofNat 64 n = pc + 4 * BitVec.ofNat 64 (n + 1) := by
  rw [BitVec.ofNat_add, BitVec.mul_add, BitVec.add_assoc, BitVec.add_comm (4 : Word64)]
  rfl

/-- Settles O45, by induction on the run. -/
theorem runsKeepConfigurationAndProgram : Obligations.RunsKeepConfigurationAndProgram := by
  refine ⟨fun s s' hstep => (step_next_fixed hstep).1, fun s t hrun => ?_⟩
  induction hrun with
  | refl s => exact ⟨rfl, rfl, rfl, 0, by simp⟩
  | step hstep _ ih =>
    obtain ⟨hpc, hcfg, hprogram, hdraws⟩ := step_next_fixed hstep
    obtain ⟨ihcfg, ihprogram, ihdraws, n, ihpc⟩ := ih
    refine ⟨ihcfg.trans hcfg, ihprogram.trans hprogram, ihdraws.trans hdraws, n + 1, ?_⟩
    rw [ihpc, hpc, pc_add_four_mul_succ]

end Sys2Proof.Machine
end

section
/-! What an accessor does not depend on: a change of the state that its decision, its value and its writes do not see goes
through to the outcome unchanged (rules R26, R116). -/

namespace Sys2Proof.Machine

/-- An `NVMem` access from a state with the same inputs ends the same, but for the change in the state it completes in. -/
theorem nvMemAccess_mapNext (g : State → State) {s s₁ done done₁ : State} (hinputs : s₁.inputs = s.inputs)
    (hdone : done₁.advancePc = g done.advancePc) : nvMemAccess s₁ done₁ = mapNext g (nvMemAccess s done) := by
  unfold nvMemAccess
  rw [hinputs]
  split
  · split
    · rfl
    · exact congrArg _ hdone
  · rfl

/-- Where the accessors do not reach the register, a change `g` of the state that leaves the decision and the inputs as
they are, and commutes with the read and the write of the memory copy, goes through either accessor. -/
theorem exec_mapNext (g : State → State) (i : Instr) {s s₁ : State}
    (hroute : accessRoute s₁.cfg s₁.inputs = accessRoute s.cfg s.inputs)
    (hne : accessRoute s.cfg s.inputs ≠ .register) (hinputs : s₁.inputs = s.inputs)
    (hread : ∀ t, (s₁.writeX t s₁.nvMemRead).advancePc = g (s.writeX t s.nvMemRead).advancePc)
    (hwrite : ∀ t, (s₁.nvMemWrite (s₁.readX t)).advancePc = g (s.nvMemWrite (s.readX t)).advancePc) :
    exec i s₁ = mapNext g (exec i s) := by
  cases hs : accessRoute s.cfg s.inputs with
  | register => exact absurd hs hne
  | memory =>
    cases i with
    | mrs t =>
      rw [exec_mrs_of_memory t hs, exec_mrs_of_memory t (hroute.trans hs)]
      exact nvMemAccess_mapNext g hinputs (hread t)
    | msr t =>
      rw [exec_msr_of_memory t hs, exec_msr_of_memory t (hroute.trans hs)]
      exact nvMemAccess_mapNext g hinputs (hwrite t)
  | raises f =>
    rw [exec_of_accessRoute_raises i hs, exec_of_accessRoute_raises i (hroute.trans hs)]
    rfl

/-! ### The implementation-defined Boolean -/

/-- The configuration with the implementation-defined Boolean of rule R116 set to `b`. -/
def withTrapPriority (b : Bool) (c : Config) : Config :=
  { c with impdefEl3TrapPrioritySdd := b }

/-- The state with this configuration. -/
def State.withConfig (c : Config) (s : State) : State :=
  { s with cfg := c }

/-- Rule R116: the arm that tests the Boolean raises what the arms after it raise under the same inputs. -/
theorem routeAtEl2_eq (c : Config) (i : Inputs) :
    routeAtEl2 c i =
      if c.haveEl3 && !i.scrFGTEn2 then
        if i.halted && i.edscrSDD then .raises undefinedFault else .raises (trapFault .el3)
      else .register := by
  unfold routeAtEl2
  split
  next harm =>
    simp only [Bool.and_eq_true, Bool.not_eq_true'] at harm
    obtain ⟨⟨⟨⟨hhalted, h3⟩, hsdd⟩, _⟩, hfgt⟩ := harm
    simp [hhalted, h3, hsdd, hfgt]
  next => rfl

theorem accessRoute_withTrapPriority (b : Bool) (c : Config) (i : Inputs) :
    accessRoute (withTrapPriority b c) i = accessRoute c i := by
  simp only [accessRoute, routeAtEl2_eq]
  rfl

/-- No field's condition of existence names the Boolean, so a write stores the same (rules R21, R113). -/
theorem writeValue_withTrapPriority (b : Bool) (c : Config) (v : Word64) :
    writeValue (withTrapPriority b c) v = writeValue c v := by
  have hexists : ∀ f : Field, f.existsIn (withTrapPriority b c) = f.existsIn c := by
    intro f
    cases f <;> rfl
  simp only [writeValue, fieldMask, hexists]
  rfl

/-- The Boolean goes through every accessor unseen. -/
theorem exec_withTrapPriority (i : Instr) (s : State) (b : Bool) :
    exec i (s.withConfig (withTrapPriority b s.cfg)) =
      mapNext (State.withConfig (withTrapPriority b s.cfg)) (exec i s) := by
  have hroute := accessRoute_withTrapPriority b s.cfg s.inputs
  by_cases hs : accessRoute s.cfg s.inputs = .register
  · cases i with
    | mrs t =>
      rw [exec_mrs_of_register t hs]
      exact exec_mrs_of_register t (hroute.trans hs)
    | msr t =>
      rw [exec_msr_of_register t hs, exec_msr_of_register t (hroute.trans hs), State.writeRegister,
        State.writeRegister, State.withConfig, writeValue_withTrapPriority]
      rfl
  · exact exec_mapNext _ i hroute hs rfl (fun _ => rfl) (fun _ => rfl)

/-- Settles O15: each outcome of the accessor is its outcome with the Boolean set, in the changed state. -/
theorem trapPriorityBooleanUnobservable : Obligations.TrapPriorityBooleanUnobservable :=
  fun i s b => outcomes_of_eq_mapNext (exec_withTrapPriority i s b)

/-! ### The register, outside its own rows -/

/-- The state with this value in the register. -/
def State.withRegister (v : Word64) (s : State) : State :=
  { s with hdfgwtr2 := v }

/-- Outside the register rows the register goes through every accessor unseen and unchanged. -/
theorem exec_withRegister (i : Instr) {s : State} (v : Word64) (h : ¬ RegisterRow s) :
    exec i (s.withRegister v) = mapNext (State.withRegister v) (exec i s) :=
  exec_mapNext _ i rfl (fun hs => h (accessRoute_register_inv hs).2) rfl (fun _ => rfl) (fun _ => rfl)

/-- Settles O22: each outcome of the accessor is its outcome with the other register value, in the changed state. -/
theorem registerHiddenBelowItsOwners : Obligations.RegisterHiddenBelowItsOwners :=
  fun i _ v h => outcomes_of_eq_mapNext (exec_withRegister i v h)

end Sys2Proof.Machine
end

section
/-! The trap function: what it reads, the writes it traps, the families with an event counter and the registers with an
`F0` field (41_trap_controls.md). -/

namespace Sys2Proof.Machine

/-! ### What the trap function reads -/

section Congruence

variable {s s' : State}

/-- The effective value of a field reads the configuration, the inputs and its own bit (rule R131). -/
theorem eff_congr {f : Field} (hcfg : s'.cfg = s.cfg) (hin : s'.inputs = s.inputs)
    (hbit : s'.hdfgwtr2.getLsbD f.bit = s.hdfgwtr2.getLsbD f.bit) : eff s' f = eff s f := by
  simp only [eff, hcfg, hin, hbit]

/-- A trap condition reads the inputs and the field's effective value (rule R132). -/
theorem trapCond_congr {f : Field} (hin : s'.inputs = s.inputs) (heff : eff s' f = eff s f) :
    trapCond s' f = trapCond s f := by
  simp only [trapCond, hin, heff]

/-- The condition of the `F0` side effects reads the effective value of an existing field only (rules R152, R153). -/
theorem f0Cond_congr {f : Field} (hcfg : s'.cfg = s.cfg) (hin : s'.inputs = s.inputs)
    (heff : f.existsIn s.cfg = true → eff s' f = eff s f) : f0Cond s' f = f0Cond s f := by
  cases hexists : f.existsIn s.cfg with
  | false => simp [f0Cond, hcfg, hexists]
  | true => simp only [f0Cond, hcfg, hin, heff hexists]

theorem f0IgnoresThisWrite_congr (r : NamedReg) (hin : s'.inputs = s.inputs)
    (hf0 : ∀ f, f0Cond s' f = f0Cond s f) : f0IgnoresThisWrite s' r = f0IgnoresThisWrite s r := by
  simp only [f0IgnoresThisWrite, hin, hf0]

/-- Which event counters are missing is the configuration's to say (rule R5). -/
theorem counterMissing_congr (r : NamedReg) (hcfg : s'.cfg = s.cfg) : counterMissing s' r = counterMissing s r := by
  unfold counterMissing
  rw [hcfg]

/-- The trap function reads the configuration, the inputs and the effective values of the existing fields (rules R131,
R157). -/
theorem fgt2WriteCheck_congr (r : NamedReg) (hcfg : s'.cfg = s.cfg) (hin : s'.inputs = s.inputs)
    (heff : ∀ f : Field, f.existsIn s.cfg = true → eff s' f = eff s f) :
    fgt2WriteCheck s' r = fgt2WriteCheck s r := by
  have hf0 : f0IgnoresThisWrite s' r = f0IgnoresThisWrite s r :=
    f0IgnoresThisWrite_congr r hin fun f => f0Cond_congr hcfg hin (heff f)
  have hgoverned : ∀ f : Field, f.existsIn s.cfg = true → governedCheck s' r f = governedCheck s r f := by
    intro f hexists
    simp only [governedCheck, counterMissing_congr r hcfg, hin, trapCond_congr hin (heff f hexists), hf0]
  unfold fgt2WriteCheck
  rw [hcfg, hf0]
  split
  · split
    · rfl
    · split
      next f _ hexists => exact hgoverned f hexists
      next => rfl
  · rfl

end Congruence

/-- Registers that agree on `FIELD_MASK` agree at every existing field (rule R47). -/
theorem getLsbD_eq_of_and_fieldMask_eq {c : Config} {v w : Word64} (h : v &&& fieldMask c = w &&& fieldMask c)
    {f : Field} (hexists : f.existsIn c = true) : v.getLsbD f.bit = w.getLsbD f.bit := by
  have hmask : (fieldMask c).getLsbD f.bit = true := (fieldMask_getLsbD c f.bit).mpr ⟨f, hexists, rfl⟩
  simpa [hmask] using congrArg (fun u => u.getLsbD f.bit) h

/-- Settles O33: equal fields have equal effective values, and the trap function reads no more of the register. -/
theorem trapFunctionReadsOnlyItsInputs : Obligations.TrapFunctionReadsOnlyItsInputs := by
  refine ⟨fun s s' r hcfg hreg hin => ?_, fun s v r hfields => ?_⟩
  · exact fgt2WriteCheck_congr r hcfg hin fun f _ => eff_congr hcfg hin (by rw [hreg])
  · exact fgt2WriteCheck_congr r rfl rfl fun f hexists =>
      eff_congr rfl rfl (getLsbD_eq_of_and_fieldMask_eq hfields hexists)

/-! ### The writes it traps -/

/-- A governed write whose condition holds is trapped to EL2, where nothing of rule R176 comes first (rule R133). -/
theorem fgt2WriteCheck_of_trapCond {s : State} {r : NamedReg} {f : Field} (hp : s.cfg.featFGT2 = true)
    (hgov : governingField r = some f) (hexists : f.existsIn s.cfg = true) (hcounter : counterMissing s r = false)
    (hnone : s.inputs.higherPriority = none) (htrap : trapCond s f = true) :
    fgt2WriteCheck s r = .raises (.systemAccessTrap .el2 0x18#6) := by
  rw [fgt2WriteCheck_governed hp hgov hexists]
  exact ((governedCheck_of_counter_present f hcounter).2 hnone).1 htrap

/-- A missing event counter is UNDEFINED before anything else is asked (rules R147, R148, R176). -/
theorem fgt2WriteCheck_of_counterMissing {s : State} {r : NamedReg} {f : Field} (hp : s.cfg.featFGT2 = true)
    (hgov : governingField r = some f) (hexists : f.existsIn s.cfg = true) (hmissing : counterMissing s r = true) :
    fgt2WriteCheck s r = .raises .undefined := by
  rw [fgt2WriteCheck_governed hp hgov hexists, governedCheck, if_pos hmissing]
  rfl

/-- Settles O23: the override makes every bit act as 0, and at EL1 that decides for both classes; `MRS` reads the stored
bits because EL3 is a register row. -/
theorem effectiveValueDecidesTraps : Obligations.EffectiveValueDecidesTraps := by
  refine ⟨eff_false_iff, fun s s' r hcfg hin heff => ?_, fun s t hp hel ht => ?_, ?_⟩
  · exact fgt2WriteCheck_congr r hcfg hin fun f _ => heff f
  · exact ⟨_, exec_mrs_register t hp (.inl hel), State.readX_writeX_same s _ ht, rfl⟩
  · intro s r f hzeroed hp hgov hexists hcounter hnone hel hen htge
    exact fgt2WriteCheck_of_trapCond hp hgov hexists hcounter hnone
      ((trapCond_at_el1_iff f hel hen htge).mpr (.inl hzeroed))

/-- Settles O25: the arms of the trap function in the order of rule R176, its one trap, and the step it ends. -/
theorem satisfiedConditionTrapsToEl2 : Obligations.SatisfiedConditionTrapsToEl2 := by
  refine ⟨fun s r f hp hgov hexists htrap => ⟨?_, fun hcounter => ⟨fun hnone => ?_, ?_⟩⟩, ?_, ?_⟩
  · exact fgt2WriteCheck_of_counterMissing hp hgov hexists
  · exact fgt2WriteCheck_of_trapCond hp hgov hexists hcounter hnone htrap
  · rw [fgt2WriteCheck_governed hp hgov hexists]
    exact (governedCheck_of_counter_present f hcounter).1
  · intro s r target ec htrap
    obtain ⟨htarget, hec, _⟩ := fgt2WriteCheck_trap htrap
    exact ⟨htarget, hec⟩
  · intro s r t f hrunning hraises
    exact execNamed_write_of_raises rfl hrunning hraises

/-- Settles O29: TRBMPAM_EL1 is a governed register with the `EL1_EL0` condition, no counter and no `F0` field. -/
theorem trbmpamWrites : Obligations.TrbmpamWrites :=
  fun s => fgt2WriteCheck_arms_of_governed (s := s) (r := .trbmpamEl1) (f := .nTRBMPAM_EL1) rfl rfl
    (trapCond_el1AndEl0 rfl)

/-- Settles O32: bit 21 decides whether the write of PMZR_EL0 is trapped, and where it is not bit 2 decides the flag. -/
theorem pmzrUnderBits21And2 : Obligations.PmzrUnderBits21And2 := by
  intro s hp hexists hicntr hnone hen htge hlow
  have hcond : trapCond s .nPMZR_EL0 = true ↔ ActsAsZero s 21 := by
    rw [trapCond_el1AndEl0 rfl]
    simp only [hlow, hen, htge, not_false_eq_true, true_and]
    rfl
  have hflag : f0IgnoresThisWrite s .pmzrEl0 = true ↔ ActsAsZero s 2 := by
    rw [f0IgnoresThisWrite_pmzrEl0_iff]
    simp only [hlow, hen, htge, hp, hicntr, not_false_eq_true, true_and, and_true]
  obtain ⟨_, hpresent⟩ := fgt2WriteCheck_arms_of_governed (r := .pmzrEl0) rfl rfl hcond
  obtain ⟨htrapped, hpassed⟩ := (hpresent hp hexists).2 hnone
  refine ⟨htrapped, fun h21 h2 => ?_, fun h21 h2 => ?_⟩
  · rw [hpassed h21, hflag.mpr h2]
  · rw [hpassed h21, Bool.eq_false_iff.mpr (mt hflag.mp h2)]

/-! ### The event-counter families -/

/-- The rows of rules R147 and R148: each family's field has the row's bit, FEAT_SPMU's condition and the counter `n`. -/
theorem eventCounter_row_field {c : Config} {r : NamedReg} {n b : Nat}
    (hrow : (r, b) ∈
      [(NamedReg.spmevtyperEl0 n, 9), (.spmevfiltrEl0 n, 9), (.spmevfilt2rEl0 n, 9), (.spmevcntrEl0 n, 8)]) :
    ∃ f, governingField r = some f ∧ f.bit = b ∧ f.existsIn c = c.featSPMU ∧ f.trapClass = .el1AndEl0 ∧
      eventCounter r = some n ∧ r ≠ .pmzrEl0 := by
  simp only [List.mem_cons, List.not_mem_nil, or_false, Prod.mk.injEq] at hrow
  obtain h | h | h | h := hrow
  all_goals
    obtain ⟨rfl, rfl⟩ := h
    exact ⟨_, rfl, rfl, rfl, rfl, rfl, nofun⟩

/-- The counter of a family is missing exactly where the implementation does not list it (rule R5). -/
theorem counterMissing_iff {r : NamedReg} {n : Nat} (s : State) (h : eventCounter r = some n) :
    counterMissing s r = true ↔ n ∉ s.cfg.spmuEventCounters := by
  simp [counterMissing, h, Config.spmuEventCounterImplemented]

/-- Settles O28: a missing counter comes first, and a present one leaves the decision to the family's field. -/
theorem eventCounterFamilyWrites : Obligations.EventCounterFamilyWrites := by
  intro s r n b hrow
  obtain ⟨f, hgov, rfl, hexists, hclass, hevent, hne⟩ := eventCounter_row_field (c := s.cfg) hrow
  have hflag := f0IgnoresThisWrite_of_governed s hgov hne
  have hmissing := counterMissing_iff s hevent
  rw [← hexists]
  refine ⟨fun habsent => ?_, fun hp hf => ⟨fun hn => ?_, fun hn => ?_⟩⟩
  · rw [fgt2WriteCheck_of_field_absent hgov habsent, hflag]
  · exact fgt2WriteCheck_of_counterMissing hp hgov hf (hmissing.mpr hn)
  · have hcounter : counterMissing s r = false :=
      Bool.eq_false_iff.mpr fun hcontra => hmissing.mp hcontra hn
    have harms := fgt2WriteCheck_arms_of_governed hgov hcounter (trapCond_el1AndEl0 hclass)
    rw [hflag] at harms
    exact harms.2 hp hf

/-! ### Registers that no field governs -/

/-- A write of a register of no field is not trapped, with or without `FEAT_FGT2` (rules R130, R157). -/
theorem fgt2WriteCheck_of_not_governed {r : NamedReg} (s : State) (hgov : governingField r = none) :
    fgt2WriteCheck s r = .notTrappedHere (f0IgnoresThisWrite s r) := by
  by_cases hp : s.cfg.featFGT2 = true
  · exact fgt2WriteCheck_no_field hp (by simp [hgov])
  · have hp' : s.cfg.featFGT2 = false := Bool.eq_false_iff.mpr hp
    simp [fgt2WriteCheck, hp', f0IgnoresThisWrite_of_feature_absent hp']

/-- Settles O34: above EL1 no condition holds, and a register of no field has none to hold. -/
theorem noTrapAboveEl1 : Obligations.NoTrapAboveEl1 := by
  refine ⟨fun s r target ec habove htrap => ?_, fun s label => fgt2WriteCheck_of_not_governed s rfl⟩
  obtain ⟨_, _, _, f, hgov, _, hcond, _⟩ := fgt2WriteCheck_trap htrap
  obtain hel2 | hel3 | hnone := habove
  · simp [trapCond_above_el1 f (.inl hel2)] at hcond
  · simp [trapCond_above_el1 f (.inr hel3)] at hcond
  · simp [hnone] at hgov

/-- `Cond3` of rule R152, with the features first. -/
theorem f0Cond_pmicfiltr_iff (s : State) :
    f0Cond s .nPMICFILTR_EL0 = true ↔ (s.cfg.featFGT2 = true ∧ s.cfg.featPMUv3ICNTR = true) ∧
      s.inputs.el2Enabled = true ∧ ¬ E2hTgeBothSet s ∧ ActsAsZero s 3 := by
  rw [f0Cond_iff]
  simp only [Field.bit, Field.existsIn]
  tauto

/-- The flag of the four `_EL0` registers of rule R152. -/
theorem f0IgnoresThisWrite_el0_iff (s : State) {r : NamedReg}
    (hr : r ∈ [NamedReg.pmcntenclrEl0, .pmcntensetEl0, .pmovsclrEl0, .pmovsetEl0]) :
    f0IgnoresThisWrite s r = true ↔
      (s.inputs.el = .el1 ∨ s.inputs.el = .el0) ∧ f0Cond s .nPMICFILTR_EL0 = true := by
  rw [← atEl1OrEl0_iff, ← Bool.and_eq_true]
  simp only [List.mem_cons, List.not_mem_nil, or_false] at hr
  obtain rfl | rfl | rfl | rfl := hr <;> rfl

/-- The flag of the two `_EL1` registers of rule R152. -/
theorem f0IgnoresThisWrite_el1_iff (s : State) {r : NamedReg} (hr : r ∈ [NamedReg.pmintenclrEl1, .pmintensetEl1]) :
    f0IgnoresThisWrite s r = true ↔ s.inputs.el = .el1 ∧ f0Cond s .nPMICFILTR_EL0 = true := by
  rw [← beq_iff_eq (a := s.inputs.el), ← Bool.and_eq_true]
  simp only [List.mem_cons, List.not_mem_nil, or_false] at hr
  obtain rfl | rfl := hr <;> rfl

/-- None of the six registers of rule R152 is governed. -/
theorem governingField_of_f0_register {r : NamedReg}
    (hr : r ∈ [NamedReg.pmcntenclrEl0, .pmcntensetEl0, .pmovsclrEl0, .pmovsetEl0] ∨
      r ∈ [NamedReg.pmintenclrEl1, .pmintensetEl1]) : governingField r = none := by
  simp only [List.mem_cons, List.not_mem_nil, or_false] at hr
  obtain (rfl | rfl | rfl | rfl) | (rfl | rfl) := hr <;> rfl

/-- Settles O30: PMICFILTR_EL0 is a governed register like those of the other `EL1_EL0` fields; the six others are never
trapped, and their flag is the condition of rule R152. -/
theorem pmicfiltrWritesAndF0 : Obligations.PmicfiltrWritesAndF0 := by
  intro s present low cond
  have hcond : trapCond s .nPMICFILTR_EL0 = true ↔ low ∧ cond := trapCond_el1AndEl0 rfl
  obtain ⟨habsent, hpresent⟩ := fgt2WriteCheck_arms_of_governed (r := .pmicfiltrEl0) rfl rfl hcond
  refine ⟨habsent, fun ⟨hp, hexists⟩ => hpresent hp hexists, fun r hr => ?_, fun r hr => ?_⟩
  · refine ⟨_, fgt2WriteCheck_of_not_governed s (governingField_of_f0_register (.inl hr)), ?_⟩
    rw [f0IgnoresThisWrite_el0_iff s hr, f0Cond_pmicfiltr_iff]
    exact and_left_comm
  · refine ⟨_, fgt2WriteCheck_of_not_governed s (governingField_of_f0_register (.inr hr)), ?_⟩
    rw [f0IgnoresThisWrite_el1_iff s hr, f0Cond_pmicfiltr_iff]
    exact and_left_comm

end Sys2Proof.Machine
end

section
/-! The masks and the Warm reset (10_state.md sections 4 and 5, 70_reset_and_hazards.md section 1), and the syndrome. -/

namespace Sys2Proof.Machine

/-! ### `FIELD_MASK` -/

/-- What a condition of existence adds to `FIELD_MASK` (rule R47). -/
def contribution (p : Bool) (v : Word64) : Word64 :=
  if p then v else 0#64

theorem contribution_or (p : Bool) (v w : Word64) :
    contribution p (v ||| w) = contribution p v ||| contribution p w := by
  cases p <;> simp [contribution]

theorem if_or_eq_or_contribution (p : Bool) (m v : Word64) : (if p then m ||| v else m) = m ||| contribution p v := by
  cases p <;> simp [contribution]

/-- `FIELD_MASK` as the OR of one contribution for each field (rules R21, R47). -/
theorem fieldMask_eq_contributions (c : Config) :
    fieldMask c = allFields.foldl (fun m f => m ||| contribution (f.existsIn c) f.mask) 0#64 := by
  simp only [fieldMask, if_or_eq_or_contribution]

/-- Settles O37: each constant of the list is the OR of the bits of the fields with that condition of existence. -/
theorem fieldMaskOfContributions : Obligations.FieldMaskOfContributions := by
  intro c
  rw [fieldMask_eq_contributions]
  calc
    _ = contribution c.featTRBEMPAM Field.nTRBMPAM_EL1.mask |||
        contribution c.featPMUv3p9 (Field.nPMZR_EL0.mask ||| Field.nPMUACR_EL1.mask) |||
        contribution c.featITE Field.nTRCITECR_EL1.mask ||| contribution c.featSPEFDS Field.nPMSDSFR_EL1.mask |||
        contribution c.featSPMU (Field.nSPMSCR_EL1.mask ||| Field.nSPMACCESSR_EL1.mask ||| Field.nSPMCR_EL0.mask |||
          Field.nSPMOVS.mask ||| Field.nSPMINTEN.mask ||| Field.nSPMCNTEN.mask ||| Field.nSPMSELR_EL0.mask |||
          Field.nSPMEVTYPERn_EL0.mask ||| Field.nSPMEVCNTRn_EL0.mask) |||
        contribution c.featPMUv3SS Field.nPMSSCR_EL1.mask |||
        contribution (c.featDebugv8p9 && c.nmdselrFieldImplemented) Field.nMDSELR_EL1.mask |||
        contribution c.featPMUv3ICNTR (Field.nPMICFILTR_EL0.mask ||| Field.nPMICNTR_EL0.mask) |||
        contribution c.featSEBEP Field.nPMIAR_EL1.mask |||
        contribution (c.featEBEP || c.featPMUv3SS) Field.nPMECR_EL1.mask := by
      simp only [allFields, List.foldl_cons, List.foldl_nil, Field.existsIn, contribution_or, BitVec.zero_or]
      ac_rfl
    _ = _ := rfl

/-- Settles O38: the parameter is false exactly where the four conjuncts hold and the implementation chooses so. -/
theorem mdselrFieldChoice : Obligations.MdselrFieldChoice := by
  intro c
  have hmay : c.nmdselrMayBeAbsent = true ↔
      c.featDebugv8p9 = true ∧ c.numBreakpoints ≤ 16 ∧ c.numWatchpoints ≤ 16 ∧ c.mdselrEl1IsRazwi = true := by
    simp [Config.nmdselrMayBeAbsent, and_assoc]
  have himpl : c.nmdselrFieldImplemented = false ↔ c.nmdselrMayBeAbsent = true ∧ c.nmdselrChoice = false := by
    simp [Config.nmdselrFieldImplemented, and_comm]
  rw [hmay] at himpl
  constructor
  · rw [Field.existsIn, Bool.and_eq_false_iff, himpl]
    cases c.featDebugv8p9 <;> simp [and_assoc]
  · rw [himpl]
    simp only [and_assoc]

/-! ### The Warm reset -/

/-- Settles O39: the value bit by bit is the law of `warmResetValue`, and the rest is the argument's by definition. -/
theorem warmResetBitByBit : Obligations.WarmResetBitByBit :=
  fun s _ hb => ⟨warmResetValue_getLsbD s.cfg _ hb, rfl⟩

/-- Without EL3 and without storage bits nothing is drawn (rules R48, R49). -/
theorem warmReset_register_zero {s : State} (h3 : s.cfg.haveEl3 = false) (hstorage : s.cfg.res0StorageMask = 0) :
    s.warmReset.hdfgwtr2 = 0 := by
  simp [warmResetValue_eq, h3, hstorage]

/-- Settles O40: a register of 0 has every bit acting as 0, which at EL1 is all a trap condition asks for. -/
theorem warmResetEnablesEveryTrap : Obligations.WarmResetEnablesEveryTrap := by
  intro s h3 hstorage
  have hzero := warmReset_register_zero h3 hstorage
  refine ⟨hzero, fun r f hp hgov hexists hcounter hnone hel hen htge => ?_⟩
  have hbit : s.warmReset.hdfgwtr2.getLsbD f.bit = false := by
    rw [hzero]
    simp
  exact fgt2WriteCheck_of_trapCond (s := s.warmReset) hp hgov hexists hcounter hnone
    ((trapCond_at_el1_iff (s := s.warmReset) f hel hen htge).mpr (.inr hbit))

/-! ### The syndrome -/

/-- Settles O41: the concatenations of rule R171 with `Rt` at bit 5, for each of its 32 values. -/
theorem syndromeOfATrappedAccessor : Obligations.SyndromeOfATrappedAccessor := by
  unfold Obligations.SyndromeOfATrappedAccessor
  decide

end Sys2Proof.Machine
end
